-- ==== Sys2Proof/Syntax.lean ====
section
/-! DEFINITION. Syntax: one constructor per row of spec/opcode_table.json (30_encoding.md R72). -/

namespace Sys2Proof

/-- The commands. Each carries the value of its field N = `cmd[9:3]`, also where the field is ignored
(30_encoding.md R75), so that no bit of a command word is dropped. -/
inductive Instr where
  /-- `NOP`, OP = 000; N ignored -/
  | nop         (n : Nat)
  /-- `LOAD`, OP = 001; N ignored; key and IV come from the ports (30_encoding.md R76) -/
  | load        (n : Nat)
  /-- `NEXT_BIT`, OP = 010; N ignored -/
  | nextBit     (n : Nat)
  /-- `NEXT_BYTE`, OP = 011; N ignored -/
  | nextByte    (n : Nat)
  /-- `NEXT_BITS n`, OP = 100; n keystream bits -/
  | nextBits    (n : Nat)
  /-- `NEXT_BYTES m`, OP = 101; m keystream bytes -/
  | nextBytes   (m : Nat)
  /-- reserved OP = 110; N ignored -/
  | reserved110 (n : Nat)
  /-- reserved OP = 111; N ignored -/
  | reserved111 (n : Nat)
deriving DecidableEq, Repr

end Sys2Proof
end

