-- ==== Sys2Proof/WellFormed.lean ====
section
/-! DEFINITION. WellFormed: which instructions the 10-bit command word can carry. -/

namespace Sys2Proof

/-- The value of the field N of a command (30_encoding.md R71). -/
def Instr.count : Instr → Nat
  | .nop n         => n
  | .load n        => n
  | .nextBit n     => n
  | .nextByte n    => n
  | .nextBits n    => n
  | .nextBytes m   => m
  | .reserved110 n => n
  | .reserved111 n => n

/-- N is a 7-bit field, "unsigned 0..127" (30_encoding.md R71). A count outside an extraction's legal range is
well formed: it is legal to encode and rejected when executed (30_encoding.md R73). -/
abbrev Instr.WellFormed (i : Instr) : Prop := i.count < 128

end Sys2Proof
end

