-- ==== Sys2Proof/Word.lean ====
section
/-! DEFINITION. Word: the bit-vector types of the block. -/

namespace Sys2Proof

/-- The 288-bit state register (10_state.md R20); s[p] is bit p − 1, as in the state literal of 00_scope.md R17. -/
abbrev SReg := BitVec 288

/-- Holds a W-bit register value: all 64 bits at W = 64, bits 31..0 at W = 32 with the bits above them 0. -/
abbrev KsWord := BitVec 64

/-- A key or an IV on its port (30_encoding.md R70). -/
abbrev Key := BitVec 80

/-- A command word (30_encoding.md R71). -/
abbrev CmdWord := BitVec 10

abbrev Byte := BitVec 8

end Sys2Proof
end

