-- ==== Sys2Proof/Decode.lean ====
section
/-! DEFINITION. Decode: command words to commands (30_encoding.md R71, R72, R77), and the encoder. -/

namespace Sys2Proof

/-- The field OP = `cmd[2:0]` (30_encoding.md R71). -/
def cmdOp (w : CmdWord) : Nat := (w.extractLsb' 0 3).toNat

/-- The field N = `zext(cmd[9:3])` (30_encoding.md R71). -/
def cmdCount (w : CmdWord) : Nat := (w.extractLsb' 3 7).toNat

/-- `decode(cmd[9:0])` of 30_encoding.md R77: total, every word selects exactly one row. -/
def decode (w : CmdWord) : Instr :=
  match cmdOp w with
  | 0 => .nop (cmdCount w)
  | 1 => .load (cmdCount w)
  | 2 => .nextBit (cmdCount w)
  | 3 => .nextByte (cmdCount w)
  | 4 => .nextBits (cmdCount w)
  | 5 => .nextBytes (cmdCount w)
  | 6 => .reserved110 (cmdCount w)
  | _ => .reserved111 (cmdCount w)

/-- Why a number is no command word. -/
inductive DecodeReject where
  /-- The number needs more than the 10 bits of the only command format (30_encoding.md R78). -/
  | notTenBits
deriving DecidableEq, Repr

/-- Decoding of any number: the numbers below 1024 are the command words. -/
def decodeNumber (w : Nat) : Except DecodeReject Instr :=
  if w < 1024 then .ok (decode (BitVec.ofNat 10 w)) else .error .notTenBits

/-- The command word of an instruction whose low `nbits` bits are `w` (bit 0 is `cmd[0]`) and whose further bits
are 0. The command port has no byte order: bit j of the number is `cmd[j]`. -/
def tableWord (nbits w : Nat) : Nat := w % 2 ^ nbits

/-- What the decoder reads from a word numbered as spec/opcode_table.json numbers it. -/
def decodeTableWord (nbits w : Nat) : Option Instr :=
  match decodeNumber (tableWord nbits w) with
  | .ok i => some i
  | .error _ => none

/-- The OP value of a command (30_encoding.md R72). -/
def opcode : Instr → BitVec 3
  | .nop _         => 0b000#3
  | .load _        => 0b001#3
  | .nextBit _     => 0b010#3
  | .nextByte _    => 0b011#3
  | .nextBits _    => 0b100#3
  | .nextBytes _   => 0b101#3
  | .reserved110 _ => 0b110#3
  | .reserved111 _ => 0b111#3

/-- `cmd = (N << 3) | OP` (30_encoding.md R79). -/
def encode (i : Instr) : CmdWord := (BitVec.ofNat 10 i.count <<< 3) ||| (opcode i).setWidth 10

end Sys2Proof
end

