-- ==== Sys2Proof/Machine/Datapath.lean ====
section
/-! DEFINITION. Datapath: the single-bit step, n steps in sequence, and the word-parallel batch on the logical
state bits (40_datapath.md sections 1 and 3). -/

namespace Sys2Proof.Machine

/-- The n-bit vector whose bit i is `f i`. -/
def bitsOf : (n : Nat) → (Nat → Bool) → BitVec n
  | 0, _ => 0#0
  | n + 1, f => BitVec.cons (f n) (bitsOf n f)

/-- s[p], for 1 ≤ p ≤ 288 (00_scope.md R9, R17); there is no other position, and none reads as 1. -/
def sbit (s : SReg) (p : Nat) : Bool := decide (1 ≤ p) && s.getLsbD (p - 1)

/-- The state register whose bit s[p] is `f p` for p in 1..288. -/
def sregOf (f : Nat → Bool) : SReg := bitsOf 288 fun j => f (j + 1)

/-- `Step1` (40_datapath.md R101): the emitted bit z and the next state. Every read is of the present state (R102). -/
def step1 (s : SReg) : Bool × SReg :=
  let t1 := sbit s 66 ^^ sbit s 93
  let t2 := sbit s 162 ^^ sbit s 177
  let t3 := sbit s 243 ^^ sbit s 288
  let z := t1 ^^ t2 ^^ t3
  let t1 := t1 ^^ (sbit s 91 && sbit s 92) ^^ sbit s 171
  let t2 := t2 ^^ (sbit s 175 && sbit s 176) ^^ sbit s 264
  let t3 := t3 ^^ (sbit s 286 && sbit s 287) ^^ sbit s 69
  (z, sregOf fun q =>
    if q = 1 then t3
    else if q = 94 then t1
    else if q = 178 then t2
    else sbit s (q - 1))

/-- `StepN` (40_datapath.md R106): n steps in sequence; bit i of the first component is the bit of step i. -/
def stepN (s : SReg) : (n : Nat) → BitVec n × SReg
  | 0 => (0#0, s)
  | n + 1 =>
    match stepN s n with
    | (zs, t) =>
      match step1 t with
      | (z, t') => (BitVec.cons z zs, t')

/-- `Slice` (40_datapath.md R110): lane i is s[p − i]. -/
def slice (s : SReg) (p n : Nat) : BitVec n := bitsOf n fun i => sbit s (p - i)

/-- The n-lane outputs of the combiner: the keystream lanes and the three feedback values. -/
structure Lanes (n : Nat) where
  z  : BitVec n
  t1 : BitVec n
  t2 : BitVec n
  t3 : BitVec n

/-- The non-linear feedback combiner on the slices `sl p` (40_datapath.md R112): lane by lane, no carry. -/
def combine {n : Nat} (sl : Nat → BitVec n) : Lanes n :=
  let t1 := sl 66 ^^^ sl 93
  let t2 := sl 162 ^^^ sl 177
  let t3 := sl 243 ^^^ sl 288
  { z  := t1 ^^^ t2 ^^^ t3
    t1 := t1 ^^^ (sl 91 &&& sl 92) ^^^ sl 171
    t2 := t2 ^^^ (sl 175 &&& sl 176) ^^^ sl 264
    t3 := t3 ^^^ (sl 286 &&& sl 287) ^^^ sl 69 }

/-- The parallel shift-and-inject: every bit moves up n positions, lane i of a feedback value goes to n − 1 − i
positions past its injection point (40_datapath.md R114). -/
def shiftInject {n : Nat} (s : SReg) (l : Lanes n) : SReg :=
  sregOf fun q =>
    if 1 ≤ q ∧ q ≤ n then l.t3.getLsbD (n - q)
    else if 94 ≤ q ∧ q ≤ 93 + n then l.t1.getLsbD (93 + n - q)
    else if 178 ≤ q ∧ q ≤ 177 + n then l.t2.getLsbD (177 + n - q)
    else sbit s (q - n)

/-- `Batch` (40_datapath.md R114): the n keystream lanes and the state after n steps, in one cycle. -/
def batch (s : SReg) (n : Nat) : BitVec n × SReg :=
  let l := combine fun p => slice s p n
  (l.z, shiftInject s l)

/-- Bit i of `load key iv` as a position (41_init.md R141). -/
def loadBit (key iv : Key) (p : Nat) : Bool :=
  if p ≤ 80 then key.getLsbD (p - 1)
  else if p ≤ 93 then false
  else if p ≤ 173 then iv.getLsbD (p - 94)
  else if p ≤ 285 then false
  else true

/-- `Load` (41_init.md R141). -/
def load (key iv : Key) : SReg := sregOf (loadBit key iv)

/-- `WarmUp` (41_init.md R142): 1152 steps, output discarded.
Irreducible, so that no proof unrolls 1152 steps by accident (`initState_eq` opens it). -/
@[irreducible] def warmUp (s : SReg) : SReg := (stepN s 1152).2

/-- `Init` (41_init.md R143): the state after initialisation. -/
def initState (key iv : Key) : SReg := warmUp (load key iv)

/-- Bit k of the keystream of a key and an IV (41_init.md R143). -/
def keystream (key iv : Key) (k : Nat) : Bool := (stepN (initState key iv) (k + 1)).1.getLsbD k

end Sys2Proof.Machine
end

