-- ==== Sys2Proof/Config.lean ====
section
/-! DEFINITION. Config: the two implementation parameters of 00_scope.md R6. The spec leaves no result
undefined, so the model needs no free value. -/

namespace Sys2Proof

/-- The legal word widths W (00_scope.md R6: "32 or 64"). -/
inductive WordWidth where
  /-- W = 32 -/
  | w32
  /-- W = 64 -/
  | w64
deriving DecidableEq, Repr

/-- The legal values of NMAX (00_scope.md R6: "`W−1` or `W`"). -/
inductive BatchCap where
  /-- NMAX = W − 1, what this hardware takes (92_eei_decisions.md D3) -/
  | wMinusOne
  /-- NMAX = W, the allowed variant (92_eei_decisions.md D3) -/
  | full
deriving DecidableEq, Repr

/-- A configuration `trivium-core-W<W>-N<NMAX>` (00_scope.md R3, R6): fixed for one block, never changed by a step. -/
structure Config where
  word : WordWidth
  cap  : BatchCap
deriving DecidableEq, Repr

/-- The configuration `State.reset` names: `trivium-core-W64-N63`.
DESIGN CHOICE (notes/assumptions/1.md), unsafe: W is OPEN in the spec; no statement rests on this value. -/
def Config.named : Config := { word := .w64, cap := .wMinusOne }

end Sys2Proof
end

