-- ==== Sys2Proof/Machine/State.lean ====
section
/-! DEFINITION. State: everything 10_state.md R42 lists, the parameters and the host's inputs; the reasons a step
can stop; the machine right after reset. -/

namespace Sys2Proof.Machine

/-- The lifecycle phase (10_state.md R30). -/
inductive Phase where
  /-- 2'b00: after reset, before the first LOAD -/
  | unloaded
  /-- 2'b01: a LOAD was accepted and warm-up steps remain -/
  | warmup
  /-- 2'b10: warm-up is done and no extraction has succeeded since the LOAD -/
  | warmedUp
  /-- 2'b11: at least one extraction has succeeded since the LOAD -/
  | running
deriving DecidableEq, Repr

/-- The cause of a rejection (60_exceptions.md R201). -/
inductive Cause where
  /-- ILLEGAL_OP, 2'b01: a reserved OP -/
  | illegalOp
  /-- NOT_READY, 2'b10: an extraction in UNLOADED -/
  | notReady
  /-- BAD_N, 2'b11: a count outside its legal range -/
  | badN
deriving DecidableEq, Repr

/-- The input ports but `clk`, whose rising edge is the step itself (30_encoding.md R70). -/
inductive InputPort where
  | rst | cmdValid | cmd | keyIn | ivIn
deriving DecidableEq, Repr

/-- What the host drives on the input ports at one rising edge (30_encoding.md R70).
`none` is an undefined (X) value (70_reset_and_hazards.md R259). -/
structure Inputs where
  /-- `rst`, synchronous, active high -/
  rst      : Option Bool
  /-- `cmd_valid` -/
  cmdValid : Option Bool
  /-- `cmd[9:0]` -/
  cmd      : Option CmdWord
  /-- `key_in[79:0]` -/
  keyIn    : Option Key
  /-- `iv_in[79:0]` -/
  ivIn     : Option Key
deriving DecidableEq, Repr

/-- A host that offers nothing: `rst` = 0 and `cmd_valid` = 0, the other ports at 0 (they are not sampled). -/
def Inputs.idle : Inputs :=
  { rst := some false, cmdValid := some false, cmd := some 0, keyIn := some 0, ivIn := some 0 }

/-- The machine. The first ten fields are the spec's own list (10_state.md R42); `cfg`, `ports` and `feed` are the
model's (notes/assumptions/1.md and 2.md): a step sees nothing but a State. -/
structure State where
  /-- s[1..288] (10_state.md R20); s[p] is bit p − 1 -/
  sreg    : SReg
  /-- the pad bits, offsets 31..0 of w[4] at W = 64 (10_state.md R25) -/
  pad     : BitVec 32
  /-- `phase` (10_state.md R30) -/
  phase   : Phase
  /-- `rem`, the warm-up steps still to do, 0..1152 (10_state.md R33) -/
  rem     : Nat
  /-- `pend`, the steps of a split extraction still to do, 0..W (10_state.md R34) -/
  pend    : Nat
  /-- `acc`, W bits: the keystream lanes a split extraction has produced (10_state.md R34) -/
  acc     : KsWord
  /-- `ks_data`, W bits: the last extraction result (10_state.md R36) -/
  ksData  : KsWord
  /-- `ks_valid` (10_state.md R37) -/
  ksValid : Bool
  /-- `rej` (10_state.md R38) -/
  rej     : Bool
  /-- `err_code`: the cause of the first rejection since reset, `none` for 2'b00 NONE (10_state.md R39) -/
  errCode : Option Cause
  /-- the parameters W and NMAX (00_scope.md R6); no step changes them -/
  cfg     : Config
  /-- the inputs at the next rising edge -/
  ports   : Inputs
  /-- the inputs at the edges after it, in order; the host is idle once they are used up -/
  feed    : List Inputs
deriving DecidableEq, Repr

/-- Why the machine stops with a fault: never. "No other input makes the block reject, stop, hang or enter an error
state" (60_exceptions.md R206), so nothing raises a fault and the type has no value; a rejected command is a next
state (60_exceptions.md R203). Neither safe nor unsafe: there is nothing to differ. -/
inductive Fault where
deriving DecidableEq, Repr

/-- Why a step has no meaning. -/
inductive Refusal where
  /-- Raised by an arm of `exec` that has no meaning yet (there is none). Safe. -/
  | notModelled (mnemonic : String)
  /-- Raised by the step at an edge that samples an undefined (X) value on this port, and by LOAD for `key_in` and
  `iv_in`: "The block's behaviour is not specified for undefined (X) inputs at those edges"
  (70_reset_and_hazards.md R259; 93_implementation_defined.md U4, treatment `refuse`). Safe. -/
  | undefinedInput (port : InputPort)
deriving DecidableEq, Repr

/-- The state right after reset of a block of configuration `c`: every register at its value of
70_reset_and_hazards.md R231. The host is idle (DESIGN CHOICE, notes/assumptions/2.md). -/
def State.resetWith (c : Config) : State :=
  { sreg := 0, pad := 0, phase := .unloaded, rem := 0, pend := 0, acc := 0, ksData := 0, ksValid := false,
    rej := false, errCode := none, cfg := c, ports := .idle, feed := [] }

/-- The state right after reset. Its configuration is a DESIGN CHOICE (notes/assumptions/1.md), unsafe. -/
def State.reset : State := State.resetWith .named

end Sys2Proof.Machine
end

