-- ==== Sys2Proof/Machine/Operands.lean ====
section
/-! DEFINITION. Operands: the parameters as numbers, the legal counts, the width of a result, and the order of key
and IV bytes on their ports. -/

namespace Sys2Proof.Machine

/-- W (00_scope.md R6). -/
def wordBits (c : Config) : Nat :=
  match c.word with
  | .w32 => 32
  | .w64 => 64

/-- NMAX, the most steps of one cycle and the largest n of `NEXT_BITS` (00_scope.md R6). -/
def nmax (c : Config) : Nat :=
  match c.cap with
  | .wMinusOne => wordBits c - 1
  | .full => wordBits c

/-- 1 ≤ n ≤ NMAX (42_extract.md R165). -/
def bitsInRange (c : Config) (n : Nat) : Bool := decide (1 ≤ n) && decide (n ≤ nmax c)

/-- 1 ≤ m ≤ W/8 (42_extract.md R166). -/
def bytesInRange (c : Config) (m : Nat) : Bool := decide (1 ≤ m) && decide (m ≤ wordBits c / 8)

/-- A value loaded into a W-bit register: its low W bits. -/
def toWord (c : Config) (v : KsWord) : KsWord := (v.setWidth (wordBits c)).setWidth 64

/-- `zext_W(Z)` (00_scope.md R10). -/
def zextWord (c : Config) {n : Nat} (z : BitVec n) : KsWord := toWord c (z.setWidth 64)

/-- The 80-bit port value of ten bytes: byte j on bits 8j+7..8j (20_memory.md R54). -/
def portOfBytes (bs : List Byte) : Key := bitsOf 80 fun i => (bs.getD (i / 8) 0).getLsbD (i % 8)

/-- The bytes of a result: byte i is bits 8i+7..8i (20_memory.md R56). -/
def resultByte (v : KsWord) (i : Nat) : Byte := v.extractLsb' (8 * i) 8

end Sys2Proof.Machine
end

