-- ==== Sys2Proof/Machine/Flags.lean ====
section
/-! DEFINITION. Flags: the status registers: phase and error codes, ready and busy, the strobes, the causes of a
rejection and their priority. -/

namespace Sys2Proof.Machine

/-- The value on `phase[1:0]` (10_state.md R30). -/
def phaseBits : Phase → BitVec 2
  | .unloaded => 0b00#2
  | .warmup   => 0b01#2
  | .warmedUp => 0b10#2
  | .running  => 0b11#2

/-- The value on `err_code[1:0]` (60_exceptions.md R201). -/
def errBits : Option Cause → BitVec 2
  | none            => 0b00#2
  | some .illegalOp => 0b01#2
  | some .notReady  => 0b10#2
  | some .badN      => 0b11#2

/-- `cmd_ready = (phase != WARMUP) ∧ (pend == 0)` (10_state.md R35). -/
def cmdReady (m : State) : Bool := decide (m.phase ≠ .warmup) && decide (m.pend = 0)

/-- The strobes' defaults at an edge: `ks_valid <- 0; rej <- 0` (70_reset_and_hazards.md R246). -/
def clearStrobes (m : State) : State := { m with ksValid := false, rej := false }

/-- `err_code` after a rejection: the first cause is kept (60_exceptions.md R203, R204). -/
def firstCause (old : Option Cause) (c : Cause) : Option Cause :=
  match old with
  | none => some c
  | some d => some d

/-- The checks of an extraction, in their order (42_extract.md R160); `inRange` is the legality of its count. -/
def checkExtract (inRange : Bool) (m : State) : Option Cause :=
  if m.phase = .unloaded then some .notReady
  else if inRange then none
  else some .badN

/-- `cause(cmd, phase)` (60_exceptions.md R202): the cause of the rejection of a command, or none. -/
def cause (c : Config) (ph : Phase) (i : Instr) : Option Cause :=
  match i with
  | .reserved110 _ => some .illegalOp
  | .reserved111 _ => some .illegalOp
  | .nextBit _     => if ph = .unloaded then some .notReady else none
  | .nextByte _    => if ph = .unloaded then some .notReady else none
  | .nextBits n    =>
    if ph = .unloaded then some .notReady else if 1 ≤ n ∧ n ≤ nmax c then none else some .badN
  | .nextBytes n   =>
    if ph = .unloaded then some .notReady else if 1 ≤ n ∧ n ≤ wordBits c / 8 then none else some .badN
  | .nop _         => none
  | .load _        => none

end Sys2Proof.Machine
end

