-- ==== Sys2Proof/Machine/Packed.lean ====
section
/-! DEFINITION. Packed: the register file of W-bit words (10_state.md R23 to R25) and the same update on it
(40_datapath.md R117 to R121). `w` is W. The word-level form is not observable (10_state.md R26). -/

namespace Sys2Proof.Machine

/-- NW = ⌈288/W⌉ (10_state.md R23). -/
def numWords (w : Nat) : Nat := (288 + w - 1) / w

/-- k(p) = (p−1) div W (10_state.md R24). -/
def wordIndex (w p : Nat) : Nat := (p - 1) / w

/-- o(p) = W−1 − ((p−1) mod W), the LSB-at-high-position convention (10_state.md R24). -/
def wordOffset (w p : Nat) : Nat := w - 1 - (p - 1) % w

/-- The register file: w[k(p)][o(p)] = s[p], and the pad bits below s[288] (10_state.md R24, R25). -/
def pack (w : Nat) (s : SReg) (pad : BitVec 32) : List (BitVec w) :=
  (List.range (numWords w)).map fun k =>
    bitsOf w fun o =>
      if k * w + (w - o) ≤ 288 then sbit s (k * w + (w - o)) else pad.getLsbD o

/-- w[k]. -/
def wordAt {w : Nat} (ws : List (BitVec w)) (k : Nat) : BitVec w := ws.getD k 0

/-- w[k−1], with w[−1] taken as 0 (40_datapath.md R117, R119). -/
def wordBefore {w : Nat} (ws : List (BitVec w)) (k : Nat) : BitVec w := if k = 0 then 0 else wordAt ws (k - 1)

/-- The logical state a register file holds (10_state.md R24). -/
def unpack {w : Nat} (ws : List (BitVec w)) : SReg :=
  sregOf fun p => (wordAt ws (wordIndex w p)).getLsbD (wordOffset w p)

/-- `((w[k−1] ‖ w[k]) >> o) & mask(n)` (40_datapath.md R117). -/
def packedSlice {w : Nat} (ws : List (BitVec w)) (p n : Nat) : BitVec n :=
  ((wordBefore ws (wordIndex w p) ++ wordAt ws (wordIndex w p)) >>> wordOffset w p).setWidth n

/-- `w'[k] = ((w[k] >> n) | (w[k−1] << (W − n))) & mask(W)` (40_datapath.md R119). -/
def packedShift {w : Nat} (ws : List (BitVec w)) (n : Nat) : List (BitVec w) :=
  (List.range (numWords w)).map fun k => (wordAt ws k >>> n) ||| (wordBefore ws k <<< (w - n))

/-- Mask-then-or of the n lanes `t` at injection site `a` (40_datapath.md R120). -/
def packedInject {w n : Nat} (ws : List (BitVec w)) (a : Nat) (t : BitVec n) : List (BitVec w) :=
  let k := wordIndex w a
  let sh := w + wordOffset w a - n + 1
  let e := wordAt ws k ++ wordAt ws (k + 1)
  let mask := (BitVec.allOnes n).setWidth (w + w)
  let e := (e &&& ~~~(mask <<< sh)) ||| (t.setWidth (w + w) <<< sh)
  (ws.set k (e.extractLsb' w w)).set (k + 1) (e.extractLsb' 0 w)

/-- At W = 64, `w'[4] = w'[4] & (mask(32) << 32)`; at W = 32 there is nothing to clear (40_datapath.md R121). -/
def packedClearPad {w : Nat} (ws : List (BitVec w)) : List (BitVec w) :=
  if w = 64 then ws.set 4 (wordAt ws 4 &&& ((BitVec.allOnes 32).setWidth w <<< 32)) else ws

/-- One update of the register file by n steps, 1 ≤ n ≤ W (40_datapath.md R117 to R121, sites in the order of R120). -/
def packedUpdate {w : Nat} (ws : List (BitVec w)) (n : Nat) : BitVec n × List (BitVec w) :=
  let l := combine fun p => packedSlice ws p n
  (l.z, packedClearPad (packedInject (packedInject (packedInject (packedShift ws n) 1 l.t3) 94 l.t1) 178 l.t2))

end Sys2Proof.Machine
end

