-- ==== Sys2Proof/Machine/Ops.lean ====
section
/-! DEFINITION. Ops: the shared operations at a clock edge: UPDATE, a rejection, a result, the busy cycles, offering
a command, sampling the ports, reset, and the output ports. -/

namespace Sys2Proof.Machine

/-- UPDATE(n) on the registers (40_datapath.md R123): s takes the state after n steps and the pad bits are cleared
(R121). -/
def updateReg (n : Nat) (m : State) : State := { m with sreg := (batch m.sreg n).2, pad := 0 }

/-- The keystream lanes of UPDATE(n) as a W-bit value, for the extractor (40_datapath.md R113). -/
def updateOut (n : Nat) (m : State) : KsWord := zextWord m.cfg (batch m.sreg n).1

/-- TAKING A REJECTION, the block's only exception mechanism (60_exceptions.md R200, R203): no result, `rej` pulses,
the first cause is recorded, nothing else changes. There is no entry, no saved register and no return (R205). -/
def reject (c : Cause) (m : State) : State :=
  { m with ksValid := false, rej := true, errCode := firstCause m.errCode c }

/-- `emit`: a result on `ks_data`, `ks_valid` pulses, `phase` becomes RUNNING (42_extract.md R161). -/
def emit (v : KsWord) (m : State) : State := { m with ksData := toWord m.cfg v, ksValid := true, phase := .running }

/-- A warm-up cycle: min(rem, NMAX) steps, output discarded (70_reset_and_hazards.md R246, R252). -/
def warmupCycle (m : State) : State :=
  let n := min m.rem (nmax m.cfg)
  let m' := updateReg n m
  { m' with rem := m.rem - n, phase := if m.rem - n = 0 then .warmedUp else m.phase }

/-- The first half of a split extraction of k > NMAX bits (70_reset_and_hazards.md R246, R253). -/
def splitFirst (k : Nat) (m : State) : State :=
  let m' := updateReg (nmax m.cfg) m
  { m' with acc := updateOut (nmax m.cfg) m, pend := k - nmax m.cfg }

/-- The second half of a split extraction (70_reset_and_hazards.md R246, R253). -/
def splitSecond (m : State) : State :=
  let m' := emit (m.acc ||| (updateOut m.pend m <<< nmax m.cfg)) (updateReg m.pend m)
  { m' with pend := 0 }

/-- An extraction of k bits that fits one cycle (42_extract.md R161, 70_reset_and_hazards.md R246). -/
def extractOne (k : Nat) (m : State) : State := emit (updateOut k m) (updateReg k m)

/-- `Extract(k)` at its accepting edge (70_reset_and_hazards.md R246). -/
def extract (k : Nat) (m : State) : State := if k ≤ nmax m.cfg then extractOne k m else splitFirst k m

/-- An extraction command: its checks, then `Extract(k)` (42_extract.md R160, R161). -/
def extractChecked (inRange : Bool) (k : Nat) (m : State) : State :=
  match checkExtract inRange m with
  | some c => reject c m
  | none => extract k m

/-- The registers after the accepting edge of a LOAD (41_init.md R140, 70_reset_and_hazards.md R246). -/
def loadRegs (key iv : Key) (m : State) : State :=
  { m with sreg := load key iv, pad := 0, rem := 1152, phase := .warmup }

/-- The registers after an edge that accepts no command, with `rst` = 0 (70_reset_and_hazards.md R246): the next
busy cycle, or nothing but the strobes (60_exceptions.md R214). -/
def quietEdge (m : State) : State :=
  if m.phase = .warmup then warmupCycle (clearStrobes m)
  else if 0 < m.pend then splitSecond (clearStrobes m)
  else clearStrobes m

/-- An edge at which a command is offered: accepted exactly when `cmd_ready` = 1, and then `body` is what it does;
held off otherwise, with no effect on the busy cycle (70_reset_and_hazards.md R245). -/
def offer (m : State) (body : State → Host.Outcome State Fault Refusal) : Host.Outcome State Fault Refusal :=
  if cmdReady m then body (clearStrobes m) else .next (quietEdge m)

/-- The registers after an edge with `rst` = 1: every one at its reset value, whatever else happens
(70_reset_and_hazards.md R230, R231). The parameters and the host's inputs are no registers. -/
def resetEdge (m : State) : State := { State.resetWith m.cfg with ports := m.ports, feed := m.feed }

/-- The inputs of this edge are over and the host drives those of the next one. -/
def nextInputs (m : State) : State := { m with ports := m.feed.headD .idle, feed := m.feed.tail }

/-- What the ports say at a rising edge. -/
inductive PortEvent where
  /-- an input the edge samples is undefined (70_reset_and_hazards.md R259) -/
  | undefined (port : InputPort)
  /-- `rst` = 1 -/
  | reset
  /-- no command to execute or hold off -/
  | quiet
  /-- `cmd_valid` = 1 with this word on `cmd` -/
  | command (w : CmdWord)
deriving DecidableEq, Repr

/-- Sampling the ports: `rst` and `cmd_valid` at every edge, `cmd` only where `cmd_valid` = 1 and `cmd_ready` = 1
(70_reset_and_hazards.md R245, R259). -/
def sample (m : State) : PortEvent :=
  match m.ports.rst, m.ports.cmdValid with
  | none, _ => .undefined .rst
  | some _, none => .undefined .cmdValid
  | some true, some _ => .reset
  | some false, some false => .quiet
  | some false, some true =>
    match m.ports.cmd with
    | some w => .command w
    | none => if cmdReady m then .undefined .cmd else .quiet

/-- The end of an edge, whatever the command did. -/
def settle (o : Host.Outcome State Fault Refusal) : Host.Outcome State Fault Refusal :=
  match o with
  | .next m => .next (nextInputs m)
  | .fault f => .fault f
  | .refused r => .refused r

/-- `m` with the word offered on the command port at its next edge, `rst` = 0, and key and IV ports defined. -/
def offerWord (m : State) (w : CmdWord) : State :=
  { m with
    ports :=
      { rst := some false, cmdValid := some true, cmd := some w, keyIn := some (m.ports.keyIn.getD 0),
        ivIn := some (m.ports.ivIn.getD 0) } }

/-- The packed register file w[0..NW−1] as the machine holds it (10_state.md R23 to R25). -/
def registerFile (m : State) : List (BitVec (wordBits m.cfg)) := pack (wordBits m.cfg) m.sreg m.pad

/-- The output ports of a block of word width `w` (30_encoding.md R70). -/
structure Outputs (w : Nat) where
  cmdReady : Bool
  ksValid  : Bool
  ksData   : BitVec w
  rej      : Bool
  errCode  : BitVec 2
  phase    : BitVec 2
deriving DecidableEq, Repr

/-- The outputs, each a function of registers only (30_encoding.md R70, 10_state.md R41). -/
def outputs (m : State) : Outputs (wordBits m.cfg) :=
  { cmdReady := cmdReady m, ksValid := m.ksValid, ksData := m.ksData.setWidth (wordBits m.cfg), rej := m.rej,
    errCode := errBits m.errCode, phase := phaseBits m.phase }

end Sys2Proof.Machine
end

