-- ==== Sys2Proof/Machine/Extraction.lean ====
section
/-! DEFINITION. Extraction: the four extraction commands (42_extract.md R163 to R166). -/

namespace Sys2Proof.Machine

/-- `NEXT_BIT` (42_extract.md R163). -/
def execNextBit (_n : Nat) (m : State) : Host.Outcome State Fault Refusal :=
  offer m fun m => .next (extractChecked true 1 m)

/-- `NEXT_BYTE` (42_extract.md R164). -/
def execNextByte (_n : Nat) (m : State) : Host.Outcome State Fault Refusal :=
  offer m fun m => .next (extractChecked true 8 m)

/-- `NEXT_BITS n` (42_extract.md R165). -/
def execNextBits (n : Nat) (m : State) : Host.Outcome State Fault Refusal :=
  offer m fun m => .next (extractChecked (bitsInRange m.cfg n) n m)

/-- `NEXT_BYTES n` (42_extract.md R166). -/
def execNextBytes (n : Nat) (m : State) : Host.Outcome State Fault Refusal :=
  offer m fun m => .next (extractChecked (bytesInRange m.cfg n) (8 * n) m)

end Sys2Proof.Machine
end

