-- ==== Sys2Proof/Machine/Init.lean ====
section
/-! DEFINITION. Init: NOP and LOAD (42_extract.md R162, 41_init.md R140). -/

namespace Sys2Proof.Machine

/-- `NOP` (42_extract.md R162): no change; the strobes fall as at every edge (10_state.md R37, R38). -/
def execNop (_n : Nat) (m : State) : Host.Outcome State Fault Refusal :=
  offer m fun m => .next m

/-- `LOAD` (41_init.md R140): key and IV are sampled at the accepting edge (30_encoding.md R76) and must be defined
there (70_reset_and_hazards.md R259). -/
def execLoad (_n : Nat) (m : State) : Host.Outcome State Fault Refusal :=
  offer m fun m =>
    match m.ports.keyIn, m.ports.ivIn with
    | some key, some iv => .next (loadRegs key iv m)
    | none, _ => .refused (.undefinedInput .keyIn)
    | some _, none => .refused (.undefinedInput .ivIn)

end Sys2Proof.Machine
end

