-- ==== Sys2Proof/Machine/Reserved.lean ====
section
/-! DEFINITION. Reserved: the two reserved OP values (30_encoding.md R74), rejected ILLEGAL_OP. -/

namespace Sys2Proof.Machine

/-- Reserved OP = 110 (30_encoding.md R74). -/
def execReserved110 (_n : Nat) (m : State) : Host.Outcome State Fault Refusal :=
  offer m fun m => .next (reject .illegalOp m)

/-- Reserved OP = 111 (30_encoding.md R74). -/
def execReserved111 (_n : Nat) (m : State) : Host.Outcome State Fault Refusal :=
  offer m fun m => .next (reject .illegalOp m)

end Sys2Proof.Machine
end

