-- ==== Sys2Proof/Machine/Dispatch.lean ====
section
/-! DEFINITION. Dispatch: the edge at which a command is offered, one arm per constructor of Instr. -/

namespace Sys2Proof.Machine

/-- What the block's registers become at a rising edge (`rst` = 0) at which the command is offered. -/
def exec (i : Instr) (s : State) : Host.Outcome State Fault Refusal :=
  match i with
  | .nop n => Sys2Proof.Machine.execNop n s
  | .load n => Sys2Proof.Machine.execLoad n s
  | .nextBit n => Sys2Proof.Machine.execNextBit n s
  | .nextByte n => Sys2Proof.Machine.execNextByte n s
  | .nextBits n => Sys2Proof.Machine.execNextBits n s
  | .nextBytes m => Sys2Proof.Machine.execNextBytes m s
  | .reserved110 n => Sys2Proof.Machine.execReserved110 n s
  | .reserved111 n => Sys2Proof.Machine.execReserved111 n s

end Sys2Proof.Machine
end

