-- ==== Sys2Proof/Machine/Step.lean ====
section
/-! DEFINITION. Step: one rising edge of the clock (70_reset_and_hazards.md R230, R245, R246). -/

namespace Sys2Proof.Machine

/-- One rising edge of `clk` with the inputs in `s.ports`. -/
def step (s : State) : Host.Outcome State Fault Refusal :=
  match sample s with
  | .undefined p => .refused (.undefinedInput p)
  | .reset => settle (.next (resetEdge s))
  | .quiet => settle (.next (quietEdge s))
  | .command w => settle (exec (decode w) s)

/-- `s` with a table word on the command port, so that the very next step accepts it if the block is ready, as it
is after reset. It stands for the host's driving of the port (notes/assumptions/3.md). -/
def State.withFetchWord (s : State) (nbits w : Nat) : State := offerWord s (BitVec.ofNat 10 (tableWord nbits w))

end Sys2Proof.Machine
end

