-- ==== Sys2Proof/Machine/Assemble.lean ====
section
/-! DEFINITION. Assemble: the assembler lines of 30_encoding.md R79, their text, their words, and what a host drives on
the ports for one. -/

namespace Sys2Proof.Machine

/-- One line of a program (30_encoding.md R79). -/
inductive AsmLine where
  | nop
  /-- `LOAD key=…, iv=…`: the ten bytes of each, key[0] and iv[0] first -/
  | load (key iv : List Byte)
  | nextBit
  | nextByte
  | nextBits (n : Nat)
  | nextBytes (m : Nat)
  /-- `.cmd 0x…`: any 10-bit word -/
  | cmd (w : CmdWord)
deriving DecidableEq, Repr

/-- The word of a line: `cmd = (N << 3) | OP`, N = 0 where the line has no count (30_encoding.md R79, R81). -/
def asmWord : AsmLine → CmdWord
  | .nop => encode (.nop 0)
  | .load _ _ => encode (.load 0)
  | .nextBit => encode (.nextBit 0)
  | .nextByte => encode (.nextByte 0)
  | .nextBits n => encode (.nextBits n)
  | .nextBytes m => encode (.nextBytes m)
  | .cmd w => w

/-- The hex digits in the order of their values, each in the forms a line may write it in. -/
def digitForms : List (List Char) :=
  [['0'], ['1'], ['2'], ['3'], ['4'], ['5'], ['6'], ['7']] ++
  [['8'], ['9'], ['A', 'a'], ['B', 'b'], ['C', 'c'], ['D', 'd'], ['E', 'e'], ['F', 'f']]

/-- The value of a hex digit: its place among the digits. -/
def hexDigit (c : Char) : Option Nat := digitForms.findIdx? fun forms => forms.contains c

/-- The number that digits below `base` write, most significant first (30_encoding.md R79: "n decimal", hex for
`.cmd`). There is at least one digit. -/
def numberOf (base : Nat) : List Char → Option Nat
  | [] => none
  | cs => (cs.mapM fun c => (hexDigit c).filter (· < base)).map fun ds => ds.foldl (fun v d => base * v + d) 0

/-- Hex digits as bytes, two digits a byte, in the order written (30_encoding.md R79). -/
def hexBytes : List Char → Option (List Byte)
  | [] => some []
  | [_] => none
  | a :: b :: cs =>
    match hexDigit a, hexDigit b, hexBytes cs with
    | some x, some y, some bs => some (BitVec.ofNat 8 (16 * x + y) :: bs)
    | _, _, _ => none

/-- The text before a comment (30_encoding.md R79: `;` starts one). -/
def beforeComment : List Char → List Char
  | [] => []
  | c :: cs => if c = ';' then [] else c :: beforeComment cs

/-- The words of a line, separated by spaces. -/
def lineWords : List Char → List (List Char)
  | [] => []
  | c :: cs =>
    if c = ' ' then
      match lineWords cs with
      | [] => []
      | w :: ws => [] :: w :: ws
    else
      match lineWords cs with
      | [] => [[c]]
      | w :: ws => (c :: w) :: ws

/-- What follows this opening of a word. -/
def afterOpening : List Char → List Char → Option (List Char)
  | [], cs => some cs
  | _ :: _, [] => none
  | p :: ps, c :: cs => if p = c then afterOpening ps cs else none

/-- Ten bytes written after `key=` or `iv=`. -/
def tenBytes (opening : List Char) (w : List Char) : Option (List Byte) :=
  match afterOpening opening w with
  | none => none
  | some ds =>
    match hexBytes ds with
    | some bs => if bs.length = 10 then some bs else none
    | none => none

/-- A count that the field N can hold (30_encoding.md R71); one outside a command's legal range may be written
(R79). -/
def countOf (w : List Char) : Option Nat :=
  match numberOf 10 w with
  | some n => if n < 128 then some n else none
  | none => none

/-- The word of `.cmd`: three hex digits, below 1024. -/
def cmdWordOf (w : List Char) : Option CmdWord :=
  match afterOpening ['0', 'x'] w with
  | none => none
  | some ds =>
    match numberOf 16 ds with
    | some v => if ds.length = 3 ∧ v < 1024 then some (BitVec.ofNat 10 v) else none
    | none => none

/-- A line of the syntax of 30_encoding.md R79: `none` where the text is no line; `some none` for a line with no
command. -/
def parseLine (text : List Char) : Option (Option AsmLine) :=
  match (lineWords (beforeComment text)).filter (· ≠ []) with
  | [] => some none
  | [['N', 'O', 'P']] => some (some .nop)
  | [['N', 'E', 'X', 'T', '_', 'B', 'I', 'T']] => some (some .nextBit)
  | [['N', 'E', 'X', 'T', '_', 'B', 'Y', 'T', 'E']] => some (some .nextByte)
  | [['N', 'E', 'X', 'T', '_', 'B', 'I', 'T', 'S'], n] => (countOf n).map fun n => some (.nextBits n)
  | [['N', 'E', 'X', 'T', '_', 'B', 'Y', 'T', 'E', 'S'], m] => (countOf m).map fun m => some (.nextBytes m)
  | [['.', 'c', 'm', 'd'], w] => (cmdWordOf w).map fun w => some (.cmd w)
  | [['L', 'O', 'A', 'D'], k, v] =>
    if k.getLast? = some ',' then
      match tenBytes ['k', 'e', 'y', '='] k.dropLast, tenBytes ['i', 'v', '='] v with
      | some key, some iv => some (some (.load key iv))
      | _, _ => none
    else none
  | _ => none

/-- The ports while a host offers a line: for a `LOAD` line its key and IV in port order (20_memory.md R54), for every
other line `key_in` and `iv_in` undefined. A line that is no LOAD leaves them unsampled (30_encoding.md R76).
DESIGN CHOICE (notes/assumptions/16.md), safe: a `.cmd` line whose word is a LOAD carries no key and no IV, and the spec
does not say what is on the ports then; here they are undefined too, so that LOAD is refused where it is accepted. -/
def assemble (l : AsmLine) : Inputs :=
  match l with
  | .load key iv =>
    { rst := some false, cmdValid := some true, cmd := some (asmWord l), keyIn := some (portOfBytes key),
      ivIn := some (portOfBytes iv) }
  | _ => { rst := some false, cmdValid := some true, cmd := some (asmWord l), keyIn := none, ivIn := none }

end Sys2Proof.Machine
end

