-- ==== Sys2Proof/Machine/Transaction.lean ====
section
/-! DEFINITION. Transaction: the transaction-level meaning of a command (00_scope.md R12): one atomic change of the
architectural state, which the edges of the machine refine (70_reset_and_hazards.md R250). -/

namespace Sys2Proof.Machine

/-- The registers the transaction level speaks of (70_reset_and_hazards.md R250). -/
structure Arch where
  sreg    : SReg
  phase   : Phase
  ksData  : KsWord
  errCode : Option Cause
deriving DecidableEq, Repr

/-- Those registers of a machine. -/
def archOf (m : State) : Arch := { sreg := m.sreg, phase := m.phase, ksData := m.ksData, errCode := m.errCode }

/-- After reset (70_reset_and_hazards.md R231). -/
def archReset : Arch := { sreg := 0, phase := .unloaded, ksData := 0, errCode := none }

/-- k, the keystream bits a command asks for (42_extract.md R163 to R166); 0 for the other commands. -/
def resultBits : Instr → Nat
  | .nop _ => 0
  | .load _ => 0
  | .nextBit _ => 1
  | .nextByte _ => 8
  | .nextBits n => n
  | .nextBytes m => 8 * m
  | .reserved110 _ => 0
  | .reserved111 _ => 0

/-- Whether a command is one of the four extractions (42_extract.md). -/
def isExtraction : Instr → Bool
  | .nop _ => false
  | .load _ => false
  | .nextBit _ => true
  | .nextByte _ => true
  | .nextBits _ => true
  | .nextBytes _ => true
  | .reserved110 _ => false
  | .reserved111 _ => false

/-- `Extract(k)` as one step (42_extract.md R161). -/
def transactExtract (c : Config) (k : Nat) (a : Arch) : Arch :=
  { a with sreg := (stepN a.sreg k).2, ksData := zextWord c (stepN a.sreg k).1, phase := .running }

/-- A command that is not rejected (41_init.md R140, 42_extract.md R162 to R166). -/
def transactAccepted (c : Config) (key iv : Key) (i : Instr) (a : Arch) : Arch :=
  match i with
  | .nop _ => a
  | .load _ => { a with sreg := initState key iv, phase := .warmedUp }
  | .nextBit _ => transactExtract c 1 a
  | .nextByte _ => transactExtract c 8 a
  | .nextBits n => transactExtract c n a
  | .nextBytes m => transactExtract c (8 * m) a
  | .reserved110 _ => a
  | .reserved111 _ => a

/-- A command as one atomic step: rejected with its cause (60_exceptions.md R202, R203), or executed. -/
def transact (c : Config) (key iv : Key) (i : Instr) (a : Arch) : Arch :=
  match cause c a.phase i with
  | some d => { a with errCode := firstCause a.errCode d }
  | none => transactAccepted c key iv i a

/-- What an edge can do at the transaction level. -/
inductive Event where
  /-- an edge with `rst` = 1 -/
  | reset
  /-- the acceptance of a command, with the key and IV on their ports -/
  | accepted (i : Instr) (key iv : Key)
deriving DecidableEq, Repr

/-- An event on the architectural state. -/
def applyEvent (c : Config) (a : Arch) : Event → Arch
  | .reset => archReset
  | .accepted i key iv => transact c key iv i a

end Sys2Proof.Machine
end

