-- ==== Sys2Proof/Machine/Trace.lean ====
section
/-! DEFINITION. Trace: runs of edges, the commands a run accepts, and the host's stimuli that statements speak of. -/

namespace Sys2Proof.Machine

/-- `n` rising edges; it ends early where an edge has no meaning. -/
def runEdges : Nat → State → Host.Outcome State Fault Refusal
  | 0, m => .next m
  | n + 1, m =>
    match step m with
    | .next m' => runEdges n m'
    | .fault f => .fault f
    | .refused r => .refused r

/-- The event of the next edge (70_reset_and_hazards.md R230, R245), at most one. -/
def eventsAt (m : State) : List Event :=
  match sample m with
  | .reset => [.reset]
  | .command w =>
    if cmdReady m then [.accepted (decode w) (m.ports.keyIn.getD 0) (m.ports.ivIn.getD 0)] else []
  | .quiet => []
  | .undefined _ => []

/-- The events of the next `n` edges, in order. -/
def events : Nat → State → List Event
  | 0, _ => []
  | n + 1, m =>
    match step m with
    | .next m' => eventsAt m ++ events n m'
    | .fault _ => []
    | .refused _ => []

/-- The busy cycles of a warm-up, C = ⌈1152/NMAX⌉ (70_reset_and_hazards.md R251). -/
def warmupCycles (c : Config) : Nat := (1152 + nmax c - 1) / nmax c

/-- The machine with the host driving `is`, one entry an edge. -/
def drive (m : State) (is : List Inputs) : State := { m with ports := is.headD .idle, feed := is.tail }

/-- A machine whose inputs at the next `n` edges neither reset it nor leave `cmd_valid` undefined; what it offers
on the command port is free. -/
def noReset : Nat → State → Bool
  | n, m =>
    ((m.ports :: m.feed).take n).all fun p => p.rst == some false && p.cmdValid.isSome

/-- The stimulus of 70_reset_and_hazards.md R240, steps 1 to 3: one reset edge, LOAD held on the port for one edge,
then an idle host. -/
def bootStimulus (key iv : Key) : List Inputs :=
  [ { Inputs.idle with rst := some true },
    { rst := some false, cmdValid := some true, cmd := some 0x001, keyIn := some key, ivIn := some iv } ]

end Sys2Proof.Machine
end

