-- ==== Sys2Proof/Safety.lean ====
section
/-! DEFINITION. Safety: the invariant of the reachable states, the host's obligations, and what counts as a run
without a fault. -/

namespace Sys2Proof.Machine

/-- What holds of every state a block reaches after a reset:
the ranges of the counters and their tie to `phase` (10_state.md R33, R34), the pad bits (R25), the widths of the
W-bit registers (R34, R36), no key-derived value before a LOAD (R30), and what the strobes say (R37, R38, R39). -/
abbrev BlockInv (m : State) : Prop :=
  m.rem ≤ 1152 ∧
  (m.phase = .warmup ↔ 0 < m.rem) ∧
  (0 < m.pend →
    m.pend = wordBits m.cfg - nmax m.cfg ∧ (m.phase = .warmedUp ∨ m.phase = .running) ∧
    m.acc.toNat < 2 ^ nmax m.cfg ∧ m.ksValid = false ∧ m.rej = false) ∧
  m.pad = 0 ∧
  m.ksData.toNat < 2 ^ wordBits m.cfg ∧
  m.acc.toNat < 2 ^ wordBits m.cfg ∧
  (m.phase = .unloaded → m.sreg = 0 ∧ m.ksData = 0 ∧ m.ksValid = false) ∧
  (m.ksValid = true → m.phase = .running ∧ m.rej = false) ∧
  (m.rej = true → m.errCode ≠ none)

/-- The inputs the next edge samples are defined (70_reset_and_hazards.md R259). -/
abbrev DefinedInputs (m : State) : Prop :=
  m.ports.rst ≠ none ∧
  m.ports.cmdValid ≠ none ∧
  (m.ports.rst = some false → m.ports.cmdValid = some true → cmdReady m = true →
    m.ports.cmd ≠ none ∧
    (m.ports.cmd.map cmdOp = some 1 → m.ports.keyIn ≠ none ∧ m.ports.ivIn ≠ none))

/-- The handshake the host must respect (70_reset_and_hazards.md R255): a command the block does not accept at this
edge stays on the ports, with the key and IV of a LOAD, at the next one (a reset releases the host). -/
abbrev HoldsCommand (m : State) : Prop :=
  m.ports.cmdValid = some true → cmdReady m = false → m.ports.rst = some false →
    (m.feed.headD .idle).rst = some false →
    (m.feed.headD .idle).cmdValid = some true ∧ (m.feed.headD .idle).cmd = m.ports.cmd ∧
    (m.ports.cmd.map cmdOp = some 1 →
      (m.feed.headD .idle).keyIn = m.ports.keyIn ∧ (m.feed.headD .idle).ivIn = m.ports.ivIn)

/-- No command has been rejected since reset: "A claim should take \"`err_code` = 00\" as its premise"
(93_implementation_defined.md U2). -/
abbrev NoRejection (m : State) : Prop := m.errCode = none

end Sys2Proof.Machine
end

