-- ==== Sys2Proof/Certificates/Slice0/Obligations.lean ====
section
/-! DEFINITION. Obligations: the statements for the provers, each with the rule of the spec it formalises. They hold
for every configuration (W in 32, 64; NMAX in W − 1, W) and, unless a premise says so, in every state. -/

open Sys2Proof Sys2Proof.Machine

/-! ### Encoding and decoding -/

/-- 30_encoding.md R71, R72, R77: decoding and encoding are inverse to each other, over every well-formed command
and over all 1024 words, so no bit of a word is dropped. -/
def Obligations.DecodeAndEncodeAreInverse : Prop :=
  (∀ i : Instr, i.WellFormed → decode (encode i) = i) ∧
  (∀ w : CmdWord, (decode w).WellFormed ∧ encode (decode w) = w)

/-- 30_encoding.md R81: the words of the common commands; R79: the assembler gives the same words. -/
def Obligations.CommonCommandWords : Prop :=
  decode 0x000 = .nop 0 ∧ decode 0x001 = .load 0 ∧ decode 0x002 = .nextBit 0 ∧ decode 0x003 = .nextByte 0 ∧
  decode 0x00C = .nextBits 1 ∧ decode 0x01C = .nextBits 3 ∧ decode 0x02C = .nextBits 5 ∧
  decode 0x044 = .nextBits 8 ∧ decode 0x0FC = .nextBits 31 ∧ decode 0x1FC = .nextBits 63 ∧
  decode 0x004 = .nextBits 0 ∧ decode 0x204 = .nextBits 64 ∧
  decode 0x00D = .nextBytes 1 ∧ decode 0x015 = .nextBytes 2 ∧ decode 0x025 = .nextBytes 4 ∧
  decode 0x045 = .nextBytes 8 ∧ decode 0x005 = .nextBytes 0 ∧
  decode 0x006 = .reserved110 0 ∧ decode 0x007 = .reserved111 0 ∧
  asmWord .nop = 0x000 ∧ asmWord (.load [] []) = 0x001 ∧ asmWord .nextBit = 0x002 ∧ asmWord .nextByte = 0x003 ∧
  asmWord (.nextBits 1) = 0x00C ∧ asmWord (.nextBits 3) = 0x01C ∧ asmWord (.nextBits 5) = 0x02C ∧
  asmWord (.nextBits 8) = 0x044 ∧ asmWord (.nextBits 31) = 0x0FC ∧ asmWord (.nextBits 63) = 0x1FC ∧
  asmWord (.nextBits 0) = 0x004 ∧ asmWord (.nextBits 64) = 0x204 ∧
  asmWord (.nextBytes 1) = 0x00D ∧ asmWord (.nextBytes 2) = 0x015 ∧ asmWord (.nextBytes 4) = 0x025 ∧
  asmWord (.nextBytes 8) = 0x045 ∧ asmWord (.nextBytes 0) = 0x005

/-- 30_encoding.md R75: at any edge in any state, two words that differ only in an ignored field N give the same next
state, and each of the operations has 128 words. -/
def Obligations.IgnoredCountChangesNothing : Prop :=
  (∀ (s : State) (p : Inputs) (v w : CmdWord),
    cmdOp v = cmdOp w → cmdOp w ≠ 4 → cmdOp w ≠ 5 →
    step { s with ports := { p with cmd := some v } } = step { s with ports := { p with cmd := some w } }) ∧
  (∀ op, op < 8 → ((List.range 1024).filter fun w => cmdOp (BitVec.ofNat 10 w) == op).length = 128)

/-! ### The datapath -/

/-- 40_datapath.md R101 (and R103, R104, R105): the emitted bit and every bit of the next state, from the state before
the step. -/
def Obligations.SingleStepBits : Prop :=
  ∀ s : SReg,
    (step1 s).1 = (sbit s 66 ^^ sbit s 93 ^^ (sbit s 162 ^^ sbit s 177) ^^ (sbit s 243 ^^ sbit s 288)) ∧
    sbit (step1 s).2 1 = (sbit s 243 ^^ sbit s 288 ^^ (sbit s 286 && sbit s 287) ^^ sbit s 69) ∧
    sbit (step1 s).2 94 = (sbit s 66 ^^ sbit s 93 ^^ (sbit s 91 && sbit s 92) ^^ sbit s 171) ∧
    sbit (step1 s).2 178 = (sbit s 162 ^^ sbit s 177 ^^ (sbit s 175 && sbit s 176) ^^ sbit s 264) ∧
    ∀ q, 2 ≤ q → q ≤ 288 → q ≠ 94 → q ≠ 178 → sbit (step1 s).2 q = sbit s (q - 1)

/-- 40_datapath.md R107: the all-zero state is a fixed point; the all-one state gives z = 0 and clears s[1], s[94] and
s[178] only. -/
def Obligations.AllZeroAndAllOneStep : Prop :=
  step1 0 = (false, 0) ∧
  (step1 (BitVec.allOnes 288)).1 = false ∧
  ∀ q, 1 ≤ q → q ≤ 288 →
    sbit (step1 (BitVec.allOnes 288)).2 q = !(decide (q = 1) || decide (q = 94) || decide (q = 178))

/-- 40_datapath.md R106: a steps and then b steps are a + b steps, with the same keystream bits in the same order. -/
def Obligations.StepsCompose : Prop :=
  ∀ (s : SReg) (a b : Nat),
    (stepN s (a + b)).2 = (stepN (stepN s a).2 b).2 ∧
    ∀ i, (stepN s (a + b)).1.getLsbD i =
      if i < a then (stepN s a).1.getLsbD i else (stepN (stepN s a).2 b).1.getLsbD (i - a)

/-- 40_datapath.md R110, R111: as long as p − i has not left p's segment (1..93, 94..177, 178..288), lane i of a slice
at p is the bit step i reads at p. -/
def Obligations.SliceLaneIsTheBitItsStepReads : Prop :=
  ∀ (s : SReg) (p n i : Nat), i < n → p ≤ 288 →
    (if p ≤ 93 then 1 else if p ≤ 177 then 94 else 178) + i ≤ p →
    (slice s p n).getLsbD i = sbit (stepN s i).2 p

/-- 40_datapath.md R115: for 1 ≤ n ≤ 66 the word-parallel batch is n single steps: the same keystream bits in the same
lanes and the same next state. -/
def Obligations.BatchIsSingleSteps : Prop :=
  ∀ (s : SReg) (n : Nat), 1 ≤ n → n ≤ 66 → batch s n = stepN s n

/-- 10_state.md R23, R24, R25: where each state bit and each pad bit stands in the register file, the number of words,
and that the words hold the state. -/
def Obligations.RegisterFileHoldsTheState : Prop :=
  ∀ (c : Config) (s : SReg) (pad : BitVec 32),
    (pack (wordBits c) s pad).length = (match c.word with | .w32 => 9 | .w64 => 5) ∧
    (∀ p, 1 ≤ p → p ≤ 288 →
      (wordAt (pack (wordBits c) s pad) (wordIndex (wordBits c) p)).getLsbD (wordOffset (wordBits c) p) = sbit s p) ∧
    (c.word = .w64 → ∀ o, o < 32 → (wordAt (pack (wordBits c) s pad) 4).getLsbD o = pad.getLsbD o) ∧
    unpack (pack (wordBits c) s pad) = s

/-- 40_datapath.md R117: the packed slice of any position is the logical slice, whatever the pad bits hold. -/
def Obligations.PackedSliceIsSlice : Prop :=
  ∀ (c : Config) (s : SReg) (pad : BitVec 32) (p n : Nat), 1 ≤ p → p ≤ 288 → 1 ≤ n → n ≤ wordBits c →
    packedSlice (pack (wordBits c) s pad) p n = slice s p n

/-- 40_datapath.md R122: the packed update (R117 to R121) unpacks to the next state of the batch and of n single steps,
with the same keystream lanes; the pad bits come out 0 (R121). -/
def Obligations.PackedUpdateIsBatch : Prop :=
  ∀ (c : Config) (s : SReg) (pad : BitVec 32) (n : Nat), 1 ≤ n → n ≤ wordBits c →
    packedUpdate (pack (wordBits c) s pad) n = ((batch s n).1, pack (wordBits c) (batch s n).2 0) ∧
    unpack (packedUpdate (pack (wordBits c) s pad) n).2 = (stepN s n).2 ∧
    (packedUpdate (pack (wordBits c) s pad) n).1 = (stepN s n).1

/-! ### Initialisation -/

/-- 20_memory.md R52, R53, R54: bit b of key byte j is on `key_in[8j+b]` and goes to s[8j+b+1], bit b of IV byte j is on
`iv_in[8j+b]` and goes to s[94+8j+b]; the worked example of R54. -/
def Obligations.LoadPlacesKeyAndIvBytes : Prop :=
  (∀ (key iv : List Byte) (j b : Nat), key.length = 10 → iv.length = 10 → j < 10 → b < 8 →
    (portOfBytes key).extractLsb' (8 * j) 8 = key.getD j 0 ∧
    (portOfBytes iv).extractLsb' (8 * j) 8 = iv.getD j 0 ∧
    sbit (load (portOfBytes key) (portOfBytes iv)) (8 * j + b + 1) = (key.getD j 0).getLsbD b ∧
    sbit (load (portOfBytes key) (portOfBytes iv)) (94 + 8 * j + b) = (iv.getD j 0).getLsbD b) ∧
  (∀ (key iv : Key) (i : Nat), i < 80 →
    sbit (load key iv) (i + 1) = key.getLsbD i ∧ sbit (load key iv) (94 + i) = iv.getLsbD i) ∧
  portOfBytes [0x5F, 0xE5, 0x2A, 0x80, 0x75, 0xDA, 0x10, 0xAD, 0x46, 0xF0] = 0xF046AD10DA75802AE55F ∧
  portOfBytes [0xE3, 0x06, 0x9F, 0x49, 0xD4, 0x23, 0xBA, 0x6F, 0xF1, 0x14] = 0x14F16FBA23D4499F06E3

/-- 41_init.md R141: the accepting edge of a LOAD writes every bit of s, and the pad bits 0, from key and IV alone. -/
def Obligations.LoadWritesEveryBit : Prop :=
  ∀ (n : Nat) (s : State) (key iv : Key), cmdReady s = true → s.ports.keyIn = some key → s.ports.ivIn = some iv →
    ∃ t, exec (.load n) s = .next t ∧ t.pad = 0 ∧
      (∀ i, i < 80 → sbit t.sreg (1 + i) = key.getLsbD i) ∧
      (∀ q, 81 ≤ q → q ≤ 93 → sbit t.sreg q = false) ∧
      (∀ i, i < 80 → sbit t.sreg (94 + i) = iv.getLsbD i) ∧
      (∀ q, 174 ≤ q → q ≤ 285 → sbit t.sreg q = false) ∧
      sbit t.sreg 286 = true ∧ sbit t.sreg 287 = true ∧ sbit t.sreg 288 = true

/-- 41_init.md R140, 70_reset_and_hazards.md R246: all that the accepting edge of a LOAD changes, in any phase but
WARMUP. -/
def Obligations.LoadAccepted : Prop :=
  ∀ (n : Nat) (s : State) (key iv : Key), cmdReady s = true → s.ports.keyIn = some key → s.ports.ivIn = some iv →
    exec (.load n) s =
      .next { s with sreg := load key iv, pad := 0, rem := 1152, phase := .warmup, ksValid := false, rej := false }

/-- 70_reset_and_hazards.md R246, R252: an edge in WARMUP does min(rem, NMAX) single steps, discards their output and
ends the warm-up when none remain, whatever command is offered. -/
def Obligations.WarmupEdge : Prop :=
  ∀ (i : Instr) (s : State), s.phase = .warmup →
    exec i s = .next
      { s with
        sreg := (stepN s.sreg (min s.rem (nmax s.cfg))).2, pad := 0, rem := s.rem - min s.rem (nmax s.cfg),
        phase := if s.rem ≤ nmax s.cfg then .warmedUp else .warmup, ksValid := false, rej := false }

/-- 41_init.md R140, R142, R145, 70_reset_and_hazards.md R251: from any ready state, a LOAD is busy in WARMUP after each
of the first C = ⌈1152/NMAX⌉ edges, and one edge later the block is ready and WARMED_UP with s = Init(key, iv), whatever
commands the host offers meanwhile; `ks_data` and `err_code` are as before the LOAD. Inputs past the end of `feed` are
idle: the model's choice, log entry 2. -/
def Obligations.LoadReachesWarmedUp : Prop :=
  ∀ (s : State) (w : CmdWord) (key iv : Key), cmdReady s = true → cmdOp w = 1 →
    s.ports.cmdValid = some true → s.ports.cmd = some w → s.ports.keyIn = some key → s.ports.ivIn = some iv →
    noReset (warmupCycles s.cfg + 1) s = true →
    (∀ j, 1 ≤ j → j ≤ warmupCycles s.cfg →
      ∃ t, runEdges j s = .next t ∧ cmdReady t = false ∧ t.phase = .warmup ∧ t.ksValid = false) ∧
    ∃ t, runEdges (warmupCycles s.cfg + 1) s = .next t ∧ cmdReady t = true ∧ t.phase = .warmedUp ∧ t.rem = 0 ∧
      t.sreg = initState key iv ∧ t.ksData = s.ksData ∧ t.errCode = s.errCode ∧ t.ksValid = false ∧ t.rej = false

/-- 70_reset_and_hazards.md R240: whatever the registers hold before the first reset, one reset edge, a LOAD held for
one edge and C idle edges leave the block as after reset but WARMED_UP with s = Init(key, iv). Inputs past the end of
`feed` are idle: the model's choice, log entry 2. -/
def Obligations.BootFromAnyPowerUpState : Prop :=
  ∀ (s : State) (key iv : Key),
    runEdges (warmupCycles s.cfg + 2) (drive s (bootStimulus key iv)) =
      .next { State.resetWith s.cfg with sreg := initState key iv, phase := .warmedUp }

/-- 41_init.md R146 and 95_test_vectors.md V1, V2: the loaded and initialised states of the two vectors of the source,
and the first eight keystream bytes of each. -/
def Obligations.SourceVectors : Prop :=
  load 0 0 = 0xE00000000000000000000000000000000000000000000000000000000000000000000000 ∧
  initState 0 0 = 0x92AC487E267F5871D3A1896DF514AD2FEA84132040AE4058A21B38EC692AE61D74931A85 ∧
  load 0xF046AD10DA75802AE55F 0x14F16FBA23D4499F06E3 =
    0xE000000000000000000000000000029E2DF7447A8933E0DC6000F046AD10DA75802AE55F ∧
  initState 0xF046AD10DA75802AE55F 0x14F16FBA23D4499F06E3 =
    0xBB0147E58AE7DD98E77AE9A1F9E67BE89A22F91276065DBE1BB82BD28C4F01F4EA1D624E ∧
  (stepN (initState 0 0) 64).1 = 0x1B05595826BFE0FB ∧
  (stepN (initState 0xF046AD10DA75802AE55F 0x14F16FBA23D4499F06E3) 64).1 = 0x3F9824766D6C38A4

/-! ### Extraction -/

/-- 42_extract.md R162: an accepted NOP changes nothing, in any phase; the strobes of the edge before fall
(10_state.md R37, R38). -/
def Obligations.NopChangesNothing : Prop :=
  ∀ (n : Nat) (s : State), cmdReady s = true →
    exec (.nop n) s = .next { s with ksValid := false, rej := false }

/-- 42_extract.md R160, R161, R163: the whole effect of an accepted NEXT_BIT. -/
def Obligations.NextBitResult : Prop :=
  ∀ (n : Nat) (s : State), cmdReady s = true → s.phase ≠ .unloaded →
    exec (.nextBit n) s = .next
      { s with
        sreg := (step1 s.sreg).2, pad := 0, ksData := if (step1 s.sreg).1 then 1 else 0, ksValid := true,
        rej := false, phase := .running }

/-- 42_extract.md R160, R161, R164: the whole effect of an accepted NEXT_BYTE. -/
def Obligations.NextByteResult : Prop :=
  ∀ (n : Nat) (s : State), cmdReady s = true → s.phase ≠ .unloaded →
    exec (.nextByte n) s = .next
      { s with
        sreg := (stepN s.sreg 8).2, pad := 0, ksData := (stepN s.sreg 8).1.setWidth 64, ksValid := true,
        rej := false, phase := .running }

/-- 42_extract.md R160, R161, R165: the whole effect of an accepted NEXT_BITS n, 1 ≤ n ≤ NMAX. -/
def Obligations.NextBitsResult : Prop :=
  ∀ (n : Nat) (s : State), cmdReady s = true → s.phase ≠ .unloaded → 1 ≤ n → n ≤ nmax s.cfg →
    exec (.nextBits n) s = .next
      { s with
        sreg := (stepN s.sreg n).2, pad := 0, ksData := (stepN s.sreg n).1.setWidth 64, ksValid := true,
        rej := false, phase := .running }

/-- 42_extract.md R160, R161, R166: the whole effect of an accepted NEXT_BYTES m of 8m ≤ NMAX bits. -/
def Obligations.NextBytesResult : Prop :=
  ∀ (m : Nat) (s : State), cmdReady s = true → s.phase ≠ .unloaded → 1 ≤ m → 8 * m ≤ nmax s.cfg →
    exec (.nextBytes m) s = .next
      { s with
        sreg := (stepN s.sreg (8 * m)).2, pad := 0, ksData := (stepN s.sreg (8 * m)).1.setWidth 64,
        ksValid := true, rej := false, phase := .running }

/-- 70_reset_and_hazards.md R253, 42_extract.md R166: with NMAX = W − 1, NEXT_BYTES W/8 does NMAX steps at its accepting
edge and the last one at the next edge, whatever is offered there; after the two edges s has advanced W steps and
`ks_data` holds the W bits they produced. -/
def Obligations.NextBytesSplitResult : Prop :=
  ∀ (s : State), cmdReady s = true → s.phase ≠ .unloaded → s.cfg.cap = .wMinusOne →
    ∃ t, exec (.nextBytes (wordBits s.cfg / 8)) s = .next t ∧
      t = { s with
        sreg := (stepN s.sreg (nmax s.cfg)).2, pad := 0, acc := (stepN s.sreg (nmax s.cfg)).1.setWidth 64,
        pend := 1, ksValid := false, rej := false } ∧
      cmdReady t = false ∧
      ∀ i : Instr, exec i t = .next
        { t with
          sreg := (stepN s.sreg (wordBits s.cfg)).2, pend := 0,
          ksData := (stepN s.sreg (wordBits s.cfg)).1.setWidth 64, ksValid := true, phase := .running }

/-- 20_memory.md R56, 42_extract.md R166, R167: byte i of an 8m-bit result is the byte the (i+1)-th of m NEXT_BYTEs
would give. -/
def Obligations.ResultBytesAreConsecutiveBytes : Prop :=
  ∀ (s : SReg) (m i : Nat), i < m → m ≤ 8 →
    resultByte ((stepN s (8 * m)).1.setWidth 64) i = (stepN (stepN s (8 * i)).2 8).1

/-- 30_encoding.md R80: NEXT_BIT is NEXT_BITS 1, NEXT_BYTE is NEXT_BITS 8 and NEXT_BYTES 1, and NEXT_BYTES m is
NEXT_BITS 8m where 8m ≤ NMAX: at every edge, in every state, the whole outcome is the same; with NMAX = W − 1 that is
m ≤ 7 at W = 64 and m ≤ 3 at W = 32. -/
def Obligations.ExtractionIdentities : Prop :=
  (∀ (n : Nat) (s : State),
    exec (.nextBit n) s = exec (.nextBits 1) s ∧ exec (.nextByte n) s = exec (.nextBits 8) s ∧
    exec (.nextByte n) s = exec (.nextBytes 1) s ∧
    ∀ m, 8 * m ≤ nmax s.cfg → exec (.nextBytes m) s = exec (.nextBits (8 * m)) s) ∧
  ∀ m, (8 * m ≤ nmax { word := .w64, cap := .wMinusOne } ↔ m ≤ 7) ∧
    (8 * m ≤ nmax { word := .w32, cap := .wMinusOne } ↔ m ≤ 3)

/-- 42_extract.md R168, 20_memory.md R63: after a LOAD, with any NOPs and rejected commands between, an extraction
returns the keystream bits K, K+1, … of the key and IV, where K is the number of bits extracted before it; and s has
advanced by K steps. (The transaction level; `TransactionLevelRefinement` carries it to the edges.) -/
def Obligations.ResultsConcatenateToTheKeystream : Prop :=
  ∀ (c : Config) (key iv k v : Key) (is : List Instr) (a : Arch),
    (∀ n, Instr.load n ∉ is) → a.sreg = initState key iv → a.phase ≠ .unloaded →
    (is.foldl (fun a i => transact c k v i a) a).sreg =
      (stepN (initState key iv) (((is.filter fun i => (cause c .running i).isNone).map resultBits).sum)).2 ∧
    ∀ e : Instr, isExtraction e = true → cause c .running e = none → ∀ j, j < resultBits e →
      (transact c k v e (is.foldl (fun a i => transact c k v i a) a)).ksData.getLsbD j =
        keystream key iv ((((is.filter fun i => (cause c .running i).isNone).map resultBits).sum) + j)

/-- 00_scope.md R8: where two blocks of different configurations both execute a command on the same state, they give the
same keystream bits and the same next state; at the edges for NEXT_BITS, and at the transaction level for every
command. -/
def Obligations.WidthChangesNoKeystreamBit : Prop :=
  (∀ (n : Nat) (s s' t t' : State), s.sreg = s'.sreg → cmdReady s = true → cmdReady s' = true →
    s.phase ≠ .unloaded → s'.phase ≠ .unloaded → 1 ≤ n → n ≤ nmax s.cfg → n ≤ nmax s'.cfg →
    exec (.nextBits n) s = .next t → exec (.nextBits n) s' = .next t' → t.ksData = t'.ksData ∧ t.sreg = t'.sreg) ∧
  ∀ (c c' : Config) (key iv : Key) (i : Instr) (a : Arch), cause c a.phase i = none → cause c' a.phase i = none →
    transact c key iv i a = transact c' key iv i a

/-! ### Rejections -/

/-- 60_exceptions.md R203: a rejected command pulses `rej`, records the first cause, and changes nothing else; the block
is ready at the next edge, and the next extraction returns what it would have returned without it. -/
def Obligations.RejectionEffect : Prop :=
  ∀ (i : Instr) (s : State) (c : Cause), cmdReady s = true → cause s.cfg s.phase i = some c →
    ∃ t, exec i s = .next t ∧
      t = { s with ksValid := false, rej := true, errCode := some (s.errCode.getD c) } ∧ cmdReady t = true ∧
      ∀ (j : Instr) (u : State), isExtraction j = true → cause s.cfg s.phase j = none → exec j s = .next u →
        exec j t = .next { u with errCode := t.errCode }

/-- 60_exceptions.md R202: the causes and their priority, command word by command word, and that a reset at the same
edge wins. -/
def Obligations.RejectionCausesAndPriority : Prop :=
  ∀ (s : State) (w : CmdWord),
    (cmdReady s = true →
      let rejectedWith (c : Cause) : State :=
        { s with ksValid := false, rej := true, errCode := some (s.errCode.getD c) }
      if cmdOp w = 6 ∨ cmdOp w = 7 then exec (decode w) s = .next (rejectedWith .illegalOp)
      else if (cmdOp w = 2 ∨ cmdOp w = 3 ∨ cmdOp w = 4 ∨ cmdOp w = 5) ∧ s.phase = .unloaded then
        exec (decode w) s = .next (rejectedWith .notReady)
      else if (cmdOp w = 4 ∧ ¬(1 ≤ cmdCount w ∧ cmdCount w ≤ nmax s.cfg)) ∨
          (cmdOp w = 5 ∧ ¬(1 ≤ cmdCount w ∧ cmdCount w ≤ wordBits s.cfg / 8)) then
        exec (decode w) s = .next (rejectedWith .badN)
      else ∀ t, exec (decode w) s = .next t → t.rej = false ∧ t.errCode = s.errCode) ∧
    ∀ t, s.ports.rst = some true → s.ports.cmdValid = some true → s.ports.cmd = some w → step s = .next t →
      t.rej = false ∧ t.errCode = none ∧ t.sreg = 0 ∧ t.phase = .unloaded

/-- 30_encoding.md R74: a command with a reserved OP is rejected ILLEGAL_OP whatever N, `phase` and the inputs are. -/
def Obligations.ReservedOpcodesRejected : Prop :=
  ∀ (n : Nat) (s : State), cmdReady s = true →
    exec (.reserved110 n) s =
      .next { s with ksValid := false, rej := true, errCode := some (s.errCode.getD .illegalOp) } ∧
    exec (.reserved111 n) s =
      .next { s with ksValid := false, rej := true, errCode := some (s.errCode.getD .illegalOp) }

/-- 60_exceptions.md R204: `err_code` keeps the first cause until a reset, which alone clears it; it takes a cause only
at an edge that rejects; a later rejection pulses `rej` and leaves it. -/
def Obligations.FirstErrorIsSticky : Prop :=
  (∀ (s t : State), step s = .next t →
    (∀ c, s.errCode = some c → s.ports.rst ≠ some true → t.errCode = some c) ∧
    (s.ports.rst = some true → t.errCode = none) ∧
    (∀ c, s.errCode = none → t.errCode = some c → t.rej = true)) ∧
  ∀ (i : Instr) (s : State) (c d : Cause), cmdReady s = true → s.errCode = some d → cause s.cfg s.phase i = some c →
    ∃ t, exec i s = .next t ∧ t.rej = true ∧ t.errCode = some d

/-! ### The frame -/

/-- What each command leaves unchanged (42_extract.md R161, R162, 41_init.md R140, 60_exceptions.md R203): the inputs and
parameters in every case; for a NOP or a rejected command everything but the strobes and `err_code`; for a LOAD
`pend`, `acc`, `ks_data` and `err_code`; for an extraction that is not rejected `rem` and `err_code`, and either
`acc` and `pend` (one cycle) or `ks_data` and `phase` (the first of two). -/
def Obligations.CommandFrame : Prop :=
  ∀ (i : Instr) (s t : State), exec i s = .next t →
    (t.cfg = s.cfg ∧ t.ports = s.ports ∧ t.feed = s.feed) ∧
    (cmdReady s = true →
      ((cause s.cfg s.phase i ≠ none ∨ ∃ n, i = .nop n) →
        t.sreg = s.sreg ∧ t.pad = s.pad ∧ t.phase = s.phase ∧ t.rem = s.rem ∧ t.pend = s.pend ∧ t.acc = s.acc ∧
        t.ksData = s.ksData ∧ t.ksValid = false) ∧
      ((∃ n, i = .load n) →
        t.pend = s.pend ∧ t.acc = s.acc ∧ t.ksData = s.ksData ∧ t.errCode = s.errCode ∧ t.ksValid = false ∧
        t.rej = false) ∧
      (isExtraction i = true → cause s.cfg s.phase i = none →
        t.rem = s.rem ∧ t.errCode = s.errCode ∧ t.rej = false ∧
        (resultBits i ≤ nmax s.cfg → t.acc = s.acc ∧ t.pend = s.pend) ∧
        (nmax s.cfg < resultBits i → t.ksData = s.ksData ∧ t.phase = s.phase ∧ t.ksValid = false)))

/-- 10_state.md R36, 70_reset_and_hazards.md R256: `ks_data` changes only at the edge that completes an extraction, which
raises `ks_valid`, or at a reset. -/
def Obligations.ResultHeldUntilTheNext : Prop :=
  ∀ (s t : State), step s = .next t → t.ksData ≠ s.ksData → t.ksValid = true ∨ s.ports.rst = some true

/-! ### The edge -/

/-- 70_reset_and_hazards.md R246, 30_encoding.md R77: at an edge that offers a command, the step is `exec` of the decoded
command, and then the host's next inputs come; the table word `withFetchWord` places is the command that runs. That the
inputs stand in the state as `ports` and `feed` is the model's choice, log entries 2 and 3. -/
def Obligations.StepRunsTheDecodedCommand : Prop :=
  (∀ (s : State) (w : CmdWord), s.ports.rst = some false → s.ports.cmdValid = some true → s.ports.cmd = some w →
    (decode w).WellFormed ∧
    step s =
      (match exec (decode w) s with
        | .next m => .next { m with ports := s.feed.headD .idle, feed := s.feed.tail }
        | .fault f => .fault f
        | .refused r => .refused r)) ∧
  ∀ (s : State) (nbits w : Nat) (i : Instr), decodeTableWord nbits w = some i →
    step (s.withFetchWord nbits w) = settle (exec i (s.withFetchWord nbits w))

/-- 70_reset_and_hazards.md R245: a command is accepted exactly at an edge with `rst` = 0, `cmd_valid` = 1 and
`cmd_ready` = 1; at any other edge, what is offered has no effect on the next state. The event shows an undefined key or
IV as 0 (log entry 3); no step uses that. -/
def Obligations.AcceptanceCondition : Prop :=
  (∀ (s : State) (w : CmdWord), s.ports.cmd = some w →
    (eventsAt s = [.accepted (decode w) (s.ports.keyIn.getD 0) (s.ports.ivIn.getD 0)] ↔
      s.ports.rst = some false ∧ s.ports.cmdValid = some true ∧ cmdReady s = true)) ∧
  ∀ (s : State) (p : Inputs), p.rst = s.ports.rst → p.cmdValid ≠ none → s.ports.cmdValid ≠ none →
    (s.ports.rst = some true ∨ cmdReady s = false ∨
      (s.ports.cmdValid = some false ∧ p.cmdValid = some false)) →
    step { s with ports := p } = step s

/-- 60_exceptions.md R214: with a ready block and an idle host every register holds for any number of edges; the strobes
are 0 after the first (10_state.md R37, R38). That a host with nothing listed is idle is the model's choice, log
entry 2. -/
def Obligations.IdleBlockHolds : Prop :=
  ∀ (s : State) (n : Nat), cmdReady s = true →
    runEdges (n + 1) (drive s []) =
      .next { s with ksValid := false, rej := false, ports := .idle, feed := [] }

/-- 10_state.md R37, R38: `ks_valid` is 1 after exactly the edges that complete an extraction, `rej` after exactly those
that reject a command. -/
def Obligations.StrobesMarkOneEdge : Prop :=
  ∀ (s t : State), step s = .next t →
    (t.ksValid = true ↔
      s.ports.rst = some false ∧
      ((s.phase ≠ .warmup ∧ 0 < s.pend) ∨
        (cmdReady s = true ∧ s.ports.cmdValid = some true ∧
          ∃ w, s.ports.cmd = some w ∧ isExtraction (decode w) = true ∧
            cause s.cfg s.phase (decode w) = none ∧ resultBits (decode w) ≤ nmax s.cfg))) ∧
    (t.rej = true ↔
      s.ports.rst = some false ∧ cmdReady s = true ∧ s.ports.cmdValid = some true ∧
      ∃ w, s.ports.cmd = some w ∧ cause s.cfg s.phase (decode w) ≠ none)

/-- 70_reset_and_hazards.md R257: in the cycle after an accepting edge the outputs tell every outcome apart, and a split
extraction has `ks_valid` = 1 one cycle later. -/
def Obligations.OutcomesAreToldApart : Prop :=
  ∀ (s t : State) (w : CmdWord), cmdReady s = true → s.ports.rst = some false → s.ports.cmdValid = some true →
    s.ports.cmd = some w → step s = .next t →
    let good := isExtraction (decode w) = true ∧ cause s.cfg s.phase (decode w) = none
    (good ∧ resultBits (decode w) ≤ nmax s.cfg ↔ (outputs t).ksValid = true) ∧
    (cause s.cfg s.phase (decode w) ≠ none ↔ (outputs t).rej = true) ∧
    (cmdOp w = 0 ↔ (outputs t).ksValid = false ∧ (outputs t).rej = false ∧ (outputs t).cmdReady = true) ∧
    (cmdOp w = 1 ↔ (outputs t).phase = 0b01#2 ∧ (outputs t).cmdReady = false) ∧
    (good ∧ nmax s.cfg < resultBits (decode w) ↔ (outputs t).cmdReady = false ∧ (outputs t).phase ≠ 0b01#2) ∧
    (good ∧ nmax s.cfg < resultBits (decode w) →
      ∀ u, t.ports.rst = some false → step t = .next u → (outputs u).ksValid = true)

/-- 70_reset_and_hazards.md R259, 60_exceptions.md R206: an edge has a next state exactly when the inputs it samples are
defined; where they are not it is refused by the port's name; nothing else stops the block. Which inputs an edge
samples: log entry 4. -/
def Obligations.OnlyUndefinedInputsStop : Prop :=
  ∀ s : State,
    ((∃ t, step s = .next t) ↔ DefinedInputs s) ∧
    (¬ DefinedInputs s → ∃ p, step s = .refused (.undefinedInput p))

/-! ### Reset and phases -/

/-- 70_reset_and_hazards.md R230: at an edge with `rst` = 1 every register takes its reset value, whatever else happens
there; only a reset reaches UNLOADED, and only a reset clears `err_code`. The premise on `cmd_valid` is R259's (log
entry 4). -/
def Obligations.ResetFromEveryState : Prop :=
  (∀ s : State, s.ports.rst = some true → s.ports.cmdValid ≠ none →
    step s = .next { State.resetWith s.cfg with ports := s.feed.headD .idle, feed := s.feed.tail }) ∧
  ∀ (s t : State), step s = .next t → s.ports.rst ≠ some true →
    (t.phase = .unloaded → s.phase = .unloaded) ∧ (t.errCode = none → s.errCode = none)

/-- 70_reset_and_hazards.md R231: the reset values, and what the host sees of them. -/
def Obligations.ResetValues : Prop :=
  ∀ c : Config,
    (State.resetWith c).sreg = 0 ∧ (State.resetWith c).pad = 0 ∧ (State.resetWith c).phase = .unloaded ∧
    (State.resetWith c).rem = 0 ∧ (State.resetWith c).pend = 0 ∧ (State.resetWith c).acc = 0 ∧
    (State.resetWith c).ksData = 0 ∧ (State.resetWith c).ksValid = false ∧ (State.resetWith c).rej = false ∧
    (State.resetWith c).errCode = none ∧
    outputs (State.resetWith c) =
      { cmdReady := true, ksValid := false, ksData := 0, rej := false, errCode := 0b00#2, phase := 0b00#2 }

/-- The invariant holds at reset, in every configuration (10_state.md R42, 70_reset_and_hazards.md R231). -/
def Obligations.ResetSatisfiesTheInvariant : Prop := ∀ c : Config, BlockInv (State.resetWith c)

/-- Every edge keeps the invariant: the counters' ranges and their tie to `phase` (10_state.md R33, R34), the pad bits
(R25), the register widths (R34, R36), no output before a LOAD (R30) and the strobes (R37 to R39). -/
def Obligations.EveryEdgeKeepsTheInvariant : Prop := ∀ (s t : State), BlockInv s → step s = .next t → BlockInv t

/-- 10_state.md R32: the only changes of `phase`, in every state of the invariant. -/
def Obligations.PhaseChanges : Prop :=
  ∀ (s t : State), BlockInv s → step s = .next t → t.phase ≠ s.phase →
    (s.ports.rst = some true ∧ t.phase = .unloaded) ∨
    (s.ports.rst = some false ∧ s.ports.cmdValid = some true ∧ s.ports.cmd.map cmdOp = some 1 ∧
      s.phase ≠ .warmup ∧ cmdReady s = true ∧ t.phase = .warmup) ∨
    (s.ports.rst = some false ∧ s.phase = .warmup ∧ 0 < s.rem ∧ t.rem = 0 ∧ t.phase = .warmedUp) ∨
    (s.ports.rst = some false ∧ s.phase = .warmedUp ∧ t.ksValid = true ∧ t.phase = .running)

/-! ### The whole machine -/

/-- 70_reset_and_hazards.md R250: over any run, with any inputs and resets in it, from a ready state of the invariant (the
reset state of any configuration among them): whenever the block is ready, s, `phase`, `ks_data` and `err_code` are
those of applying the transaction-level rules, in order, to the commands the run accepted. -/
def Obligations.TransactionLevelRefinement : Prop :=
  ∀ (n : Nat) (s t : State), BlockInv s → cmdReady s = true → runEdges n s = .next t → cmdReady t = true →
    archOf t = (events n s).foldl (applyEvent s.cfg) (archOf s)

/-- 60_exceptions.md R206: no command and no input but a reset keeps the block busy for more than C = ⌈1152/NMAX⌉ edges. -/
def Obligations.BusyEndsInBoundedTime : Prop :=
  ∀ s : State, BlockInv s → noReset (warmupCycles s.cfg) s = true →
    ∃ j t, j ≤ warmupCycles s.cfg ∧ runEdges j s = .next t ∧ cmdReady t = true

/-- 92_eei_decisions.md D13, 41_init.md R144: before the first LOAD the values of s, the pad bits and `acc` cannot be
observed: two machines that differ in them alone give, under the same inputs and for any number of edges, the same
outputs, and once a LOAD is accepted the same s. -/
def Obligations.UnkeyedStateIsUnobservable : Prop :=
  ∀ (n : Nat) (s s' : State) (x : SReg) (p : BitVec 32) (a : KsWord), s.phase = .unloaded → cmdReady s = true →
    runEdges n s = .next s' →
    ∃ t', runEdges n { s with sreg := x, pad := p, acc := a } = .next t' ∧
      t' = { s' with sreg := t'.sreg, pad := t'.pad, acc := t'.acc } ∧
      (s'.phase ≠ .unloaded → t'.sreg = s'.sreg ∧ t'.pad = s'.pad)
end

