-- ==== Sys2Proof/Laws/Datapath.lean ====
section
/-! SUPPORT. Laws/Datapath: the bits of every vector the datapath builds. -/

namespace Sys2Proof.Machine

@[simp] theorem getLsbD_bitsOf (n : Nat) (f : Nat → Bool) (i : Nat) :
    (bitsOf n f).getLsbD i = (decide (i < n) && f i) := by
  induction n with
  | zero => simp [bitsOf]
  | succ n ih =>
    rw [bitsOf, BitVec.getLsbD_cons]
    by_cases h : i = n
    · simp [h]
    · rw [if_neg h, ih]
      have : (i < n + 1) = (i < n) := by apply propext; omega
      rw [decide_eq_decide.mpr this.to_iff]

@[simp] theorem getElem_bitsOf (n : Nat) (f : Nat → Bool) (i : Nat) (h : i < n) : (bitsOf n f)[i] = f i := by
  have := getLsbD_bitsOf n f i
  rwa [BitVec.getLsbD_eq_getElem h, decide_eq_true h, Bool.true_and] at this

/-- A position outside 1..288 reads as 0. -/
theorem sbit_of_gt {s : SReg} {p : Nat} (h : 288 < p) : sbit s p = false := by
  simp [sbit, BitVec.getLsbD_of_ge _ _ (show 288 ≤ p - 1 by omega)]

@[simp] theorem sbit_at_zero (s : SReg) : sbit s 0 = false := rfl

@[simp] theorem sbit_of_zero (p : Nat) : sbit 0 p = false := by simp [sbit]

theorem sbit_sregOf (f : Nat → Bool) {p : Nat} (h : 1 ≤ p) (h' : p ≤ 288) : sbit (sregOf f) p = f p := by
  simp only [sbit, sregOf, getLsbD_bitsOf, h, decide_true, Bool.true_and, show p - 1 < 288 by omega,
    show p - 1 + 1 = p by omega]

/-- Two states with the same bits s[1..288] are the same. -/
theorem sreg_ext {s t : SReg} (h : ∀ p, 1 ≤ p → p ≤ 288 → sbit s p = sbit t p) : s = t := by
  apply BitVec.eq_of_getLsbD_eq
  intro i hi
  have := h (i + 1) (by omega) (by omega)
  simpa [sbit] using this

@[simp] theorem getLsbD_slice (s : SReg) (p n i : Nat) :
    (slice s p n).getLsbD i = (decide (i < n) && sbit s (p - i)) := by simp [slice]

@[simp] theorem getElem_slice (s : SReg) (p n i : Nat) (h : i < n) : (slice s p n)[i] = sbit s (p - i) := by
  simp [slice]

theorem stepN_zero (s : SReg) : stepN s 0 = (0#0, s) := rfl

@[simp] theorem stepN_zero_state (s : SReg) : (stepN s 0).2 = s := rfl

theorem stepN_succ_state (s : SReg) (n : Nat) : (stepN s (n + 1)).2 = (step1 (stepN s n).2).2 := rfl

theorem stepN_succ_bits (s : SReg) (n : Nat) :
    (stepN s (n + 1)).1 = BitVec.cons (step1 (stepN s n).2).1 (stepN s n).1 := rfl

/-- The number of steps may be rewritten in a state, although the type of the bits depends on it. -/
theorem stepN_state_congr (s : SReg) {a b : Nat} (h : a = b) : (stepN s a).2 = (stepN s b).2 := by rw [h]

theorem batch_state_congr (s : SReg) {a b : Nat} (h : a = b) : (batch s a).2 = (batch s b).2 := by rw [h]

/-- Init is Load and 1152 steps (41_init.md R142, R143). The number is a variable, so that no goal holds 1152 steps
as a literal, which `simp` and `rfl` would unroll. -/
theorem initState_eq (key iv : Key) {n : Nat} (h : n = 1152) : initState key iv = (stepN (load key iv) n).2 := by
  unfold initState warmUp; exact stepN_state_congr _ h.symm

/-- Lane i of n steps is the bit of step i, whatever n is. -/
theorem getLsbD_stepN (s : SReg) (n i : Nat) :
    (stepN s n).1.getLsbD i = (decide (i < n) && (step1 (stepN s i).2).1) := by
  induction n with
  | zero => simp [stepN]
  | succ n ih =>
    rw [stepN_succ_bits, BitVec.getLsbD_cons]
    by_cases h : i = n
    · subst h
      simp
    · rw [if_neg h, ih]
      have : (i < n + 1) = (i < n) := by apply propext; omega
      rw [decide_eq_decide.mpr this.to_iff]

/-- The bits of the state after one step (40_datapath.md R101). -/
theorem sbit_step1 (s : SReg) {q : Nat} (h : 1 ≤ q) (h' : q ≤ 288) :
    sbit (step1 s).2 q =
      if q = 1 then (sbit s 243 ^^ sbit s 288) ^^ (sbit s 286 && sbit s 287) ^^ sbit s 69
      else if q = 94 then (sbit s 66 ^^ sbit s 93) ^^ (sbit s 91 && sbit s 92) ^^ sbit s 171
      else if q = 178 then (sbit s 162 ^^ sbit s 177) ^^ (sbit s 175 && sbit s 176) ^^ sbit s 264
      else sbit s (q - 1) := by
  simp only [step1]
  rw [sbit_sregOf _ h h']

/-- The bits of the state after a batch (40_datapath.md R114). -/
theorem sbit_batch (s : SReg) (n : Nat) {q : Nat} (h : 1 ≤ q) (h' : q ≤ 288) :
    sbit (batch s n).2 q =
      if 1 ≤ q ∧ q ≤ n then (combine fun p => slice s p n).t3.getLsbD (n - q)
      else if 94 ≤ q ∧ q ≤ 93 + n then (combine fun p => slice s p n).t1.getLsbD (93 + n - q)
      else if 178 ≤ q ∧ q ≤ 177 + n then (combine fun p => slice s p n).t2.getLsbD (177 + n - q)
      else sbit s (q - n) := by
  simp only [batch, shiftInject]
  rw [sbit_sregOf _ h h']

/-- The bits of a loaded state (41_init.md R141). -/
theorem sbit_load (key iv : Key) {p : Nat} (h : 1 ≤ p) (h' : p ≤ 288) : sbit (load key iv) p = loadBit key iv p :=
  sbit_sregOf _ h h'

/-- The words of a packed register file (10_state.md R24). -/
theorem wordAt_pack {w : Nat} (s : SReg) (pad : BitVec 32) {k : Nat} (h : k < numWords w) :
    wordAt (pack w s pad) k =
      bitsOf w fun o =>
        if k * w + (w - o) ≤ 288 then sbit s (k * w + (w - o)) else pad.getLsbD o := by
  simp [wordAt, pack, List.getD, h]

end Sys2Proof.Machine
end

