-- ==== Sys2Proof/Laws/State.lean ====
section
/-! SUPPORT. Laws/State: for every shared update of the state, what each field is after it. -/

namespace Sys2Proof.Machine

@[simp] theorem clearStrobes_sreg (m : State) : (clearStrobes m).sreg = m.sreg := rfl
@[simp] theorem clearStrobes_pad (m : State) : (clearStrobes m).pad = m.pad := rfl
@[simp] theorem clearStrobes_phase (m : State) : (clearStrobes m).phase = m.phase := rfl
@[simp] theorem clearStrobes_rem (m : State) : (clearStrobes m).rem = m.rem := rfl
@[simp] theorem clearStrobes_pend (m : State) : (clearStrobes m).pend = m.pend := rfl
@[simp] theorem clearStrobes_acc (m : State) : (clearStrobes m).acc = m.acc := rfl
@[simp] theorem clearStrobes_ksData (m : State) : (clearStrobes m).ksData = m.ksData := rfl
@[simp] theorem clearStrobes_ksValid (m : State) : (clearStrobes m).ksValid = false := rfl
@[simp] theorem clearStrobes_rej (m : State) : (clearStrobes m).rej = false := rfl
@[simp] theorem clearStrobes_errCode (m : State) : (clearStrobes m).errCode = m.errCode := rfl
@[simp] theorem clearStrobes_cfg (m : State) : (clearStrobes m).cfg = m.cfg := rfl
@[simp] theorem clearStrobes_ports (m : State) : (clearStrobes m).ports = m.ports := rfl
@[simp] theorem clearStrobes_feed (m : State) : (clearStrobes m).feed = m.feed := rfl

@[simp] theorem updateReg_sreg (n : Nat) (m : State) : (updateReg n m).sreg = (batch m.sreg n).2 := rfl
@[simp] theorem updateReg_pad (n : Nat) (m : State) : (updateReg n m).pad = 0 := rfl
@[simp] theorem updateReg_phase (n : Nat) (m : State) : (updateReg n m).phase = m.phase := rfl
@[simp] theorem updateReg_rem (n : Nat) (m : State) : (updateReg n m).rem = m.rem := rfl
@[simp] theorem updateReg_pend (n : Nat) (m : State) : (updateReg n m).pend = m.pend := rfl
@[simp] theorem updateReg_acc (n : Nat) (m : State) : (updateReg n m).acc = m.acc := rfl
@[simp] theorem updateReg_ksData (n : Nat) (m : State) : (updateReg n m).ksData = m.ksData := rfl
@[simp] theorem updateReg_ksValid (n : Nat) (m : State) : (updateReg n m).ksValid = m.ksValid := rfl
@[simp] theorem updateReg_rej (n : Nat) (m : State) : (updateReg n m).rej = m.rej := rfl
@[simp] theorem updateReg_errCode (n : Nat) (m : State) : (updateReg n m).errCode = m.errCode := rfl
@[simp] theorem updateReg_cfg (n : Nat) (m : State) : (updateReg n m).cfg = m.cfg := rfl
@[simp] theorem updateReg_ports (n : Nat) (m : State) : (updateReg n m).ports = m.ports := rfl
@[simp] theorem updateReg_feed (n : Nat) (m : State) : (updateReg n m).feed = m.feed := rfl

@[simp] theorem reject_sreg (c : Cause) (m : State) : (reject c m).sreg = m.sreg := rfl
@[simp] theorem reject_pad (c : Cause) (m : State) : (reject c m).pad = m.pad := rfl
@[simp] theorem reject_phase (c : Cause) (m : State) : (reject c m).phase = m.phase := rfl
@[simp] theorem reject_rem (c : Cause) (m : State) : (reject c m).rem = m.rem := rfl
@[simp] theorem reject_pend (c : Cause) (m : State) : (reject c m).pend = m.pend := rfl
@[simp] theorem reject_acc (c : Cause) (m : State) : (reject c m).acc = m.acc := rfl
@[simp] theorem reject_ksData (c : Cause) (m : State) : (reject c m).ksData = m.ksData := rfl
@[simp] theorem reject_ksValid (c : Cause) (m : State) : (reject c m).ksValid = false := rfl
@[simp] theorem reject_rej (c : Cause) (m : State) : (reject c m).rej = true := rfl
@[simp] theorem reject_errCode (c : Cause) (m : State) : (reject c m).errCode = firstCause m.errCode c := rfl
@[simp] theorem reject_cfg (c : Cause) (m : State) : (reject c m).cfg = m.cfg := rfl
@[simp] theorem reject_ports (c : Cause) (m : State) : (reject c m).ports = m.ports := rfl
@[simp] theorem reject_feed (c : Cause) (m : State) : (reject c m).feed = m.feed := rfl

@[simp] theorem emit_sreg (v : KsWord) (m : State) : (emit v m).sreg = m.sreg := rfl
@[simp] theorem emit_pad (v : KsWord) (m : State) : (emit v m).pad = m.pad := rfl
@[simp] theorem emit_phase (v : KsWord) (m : State) : (emit v m).phase = .running := rfl
@[simp] theorem emit_rem (v : KsWord) (m : State) : (emit v m).rem = m.rem := rfl
@[simp] theorem emit_pend (v : KsWord) (m : State) : (emit v m).pend = m.pend := rfl
@[simp] theorem emit_acc (v : KsWord) (m : State) : (emit v m).acc = m.acc := rfl
@[simp] theorem emit_ksData (v : KsWord) (m : State) : (emit v m).ksData = toWord m.cfg v := rfl
@[simp] theorem emit_ksValid (v : KsWord) (m : State) : (emit v m).ksValid = true := rfl
@[simp] theorem emit_rej (v : KsWord) (m : State) : (emit v m).rej = m.rej := rfl
@[simp] theorem emit_errCode (v : KsWord) (m : State) : (emit v m).errCode = m.errCode := rfl
@[simp] theorem emit_cfg (v : KsWord) (m : State) : (emit v m).cfg = m.cfg := rfl
@[simp] theorem emit_ports (v : KsWord) (m : State) : (emit v m).ports = m.ports := rfl
@[simp] theorem emit_feed (v : KsWord) (m : State) : (emit v m).feed = m.feed := rfl

@[simp] theorem warmupCycle_sreg (m : State) : (warmupCycle m).sreg = (batch m.sreg (min m.rem (nmax m.cfg))).2 := rfl
@[simp] theorem warmupCycle_pad (m : State) : (warmupCycle m).pad = 0 := rfl
@[simp] theorem warmupCycle_phase (m : State) : (warmupCycle m).phase = if m.rem - min m.rem (nmax m.cfg) = 0 then .warmedUp else m.phase := rfl
@[simp] theorem warmupCycle_rem (m : State) : (warmupCycle m).rem = m.rem - min m.rem (nmax m.cfg) := rfl
@[simp] theorem warmupCycle_pend (m : State) : (warmupCycle m).pend = m.pend := rfl
@[simp] theorem warmupCycle_acc (m : State) : (warmupCycle m).acc = m.acc := rfl
@[simp] theorem warmupCycle_ksData (m : State) : (warmupCycle m).ksData = m.ksData := rfl
@[simp] theorem warmupCycle_ksValid (m : State) : (warmupCycle m).ksValid = m.ksValid := rfl
@[simp] theorem warmupCycle_rej (m : State) : (warmupCycle m).rej = m.rej := rfl
@[simp] theorem warmupCycle_errCode (m : State) : (warmupCycle m).errCode = m.errCode := rfl
@[simp] theorem warmupCycle_cfg (m : State) : (warmupCycle m).cfg = m.cfg := rfl
@[simp] theorem warmupCycle_ports (m : State) : (warmupCycle m).ports = m.ports := rfl
@[simp] theorem warmupCycle_feed (m : State) : (warmupCycle m).feed = m.feed := rfl

@[simp] theorem splitFirst_sreg (k : Nat) (m : State) : (splitFirst k m).sreg = (batch m.sreg (nmax m.cfg)).2 := rfl
@[simp] theorem splitFirst_pad (k : Nat) (m : State) : (splitFirst k m).pad = 0 := rfl
@[simp] theorem splitFirst_phase (k : Nat) (m : State) : (splitFirst k m).phase = m.phase := rfl
@[simp] theorem splitFirst_rem (k : Nat) (m : State) : (splitFirst k m).rem = m.rem := rfl
@[simp] theorem splitFirst_pend (k : Nat) (m : State) : (splitFirst k m).pend = k - nmax m.cfg := rfl
@[simp] theorem splitFirst_acc (k : Nat) (m : State) : (splitFirst k m).acc = updateOut (nmax m.cfg) m := rfl
@[simp] theorem splitFirst_ksData (k : Nat) (m : State) : (splitFirst k m).ksData = m.ksData := rfl
@[simp] theorem splitFirst_ksValid (k : Nat) (m : State) : (splitFirst k m).ksValid = m.ksValid := rfl
@[simp] theorem splitFirst_rej (k : Nat) (m : State) : (splitFirst k m).rej = m.rej := rfl
@[simp] theorem splitFirst_errCode (k : Nat) (m : State) : (splitFirst k m).errCode = m.errCode := rfl
@[simp] theorem splitFirst_cfg (k : Nat) (m : State) : (splitFirst k m).cfg = m.cfg := rfl
@[simp] theorem splitFirst_ports (k : Nat) (m : State) : (splitFirst k m).ports = m.ports := rfl
@[simp] theorem splitFirst_feed (k : Nat) (m : State) : (splitFirst k m).feed = m.feed := rfl

@[simp] theorem splitSecond_sreg (m : State) : (splitSecond m).sreg = (batch m.sreg m.pend).2 := rfl
@[simp] theorem splitSecond_pad (m : State) : (splitSecond m).pad = 0 := rfl
@[simp] theorem splitSecond_phase (m : State) : (splitSecond m).phase = .running := rfl
@[simp] theorem splitSecond_rem (m : State) : (splitSecond m).rem = m.rem := rfl
@[simp] theorem splitSecond_pend (m : State) : (splitSecond m).pend = 0 := rfl
@[simp] theorem splitSecond_acc (m : State) : (splitSecond m).acc = m.acc := rfl
@[simp] theorem splitSecond_ksData (m : State) : (splitSecond m).ksData = toWord m.cfg (m.acc ||| (updateOut m.pend m <<< nmax m.cfg)) := rfl
@[simp] theorem splitSecond_ksValid (m : State) : (splitSecond m).ksValid = true := rfl
@[simp] theorem splitSecond_rej (m : State) : (splitSecond m).rej = m.rej := rfl
@[simp] theorem splitSecond_errCode (m : State) : (splitSecond m).errCode = m.errCode := rfl
@[simp] theorem splitSecond_cfg (m : State) : (splitSecond m).cfg = m.cfg := rfl
@[simp] theorem splitSecond_ports (m : State) : (splitSecond m).ports = m.ports := rfl
@[simp] theorem splitSecond_feed (m : State) : (splitSecond m).feed = m.feed := rfl

@[simp] theorem extractOne_sreg (k : Nat) (m : State) : (extractOne k m).sreg = (batch m.sreg k).2 := rfl
@[simp] theorem extractOne_pad (k : Nat) (m : State) : (extractOne k m).pad = 0 := rfl
@[simp] theorem extractOne_phase (k : Nat) (m : State) : (extractOne k m).phase = .running := rfl
@[simp] theorem extractOne_rem (k : Nat) (m : State) : (extractOne k m).rem = m.rem := rfl
@[simp] theorem extractOne_pend (k : Nat) (m : State) : (extractOne k m).pend = m.pend := rfl
@[simp] theorem extractOne_acc (k : Nat) (m : State) : (extractOne k m).acc = m.acc := rfl
@[simp] theorem extractOne_ksData (k : Nat) (m : State) : (extractOne k m).ksData = toWord m.cfg (updateOut k m) := rfl
@[simp] theorem extractOne_ksValid (k : Nat) (m : State) : (extractOne k m).ksValid = true := rfl
@[simp] theorem extractOne_rej (k : Nat) (m : State) : (extractOne k m).rej = m.rej := rfl
@[simp] theorem extractOne_errCode (k : Nat) (m : State) : (extractOne k m).errCode = m.errCode := rfl
@[simp] theorem extractOne_cfg (k : Nat) (m : State) : (extractOne k m).cfg = m.cfg := rfl
@[simp] theorem extractOne_ports (k : Nat) (m : State) : (extractOne k m).ports = m.ports := rfl
@[simp] theorem extractOne_feed (k : Nat) (m : State) : (extractOne k m).feed = m.feed := rfl

@[simp] theorem loadRegs_sreg (key iv : Key) (m : State) : (loadRegs key iv m).sreg = load key iv := rfl
@[simp] theorem loadRegs_pad (key iv : Key) (m : State) : (loadRegs key iv m).pad = 0 := rfl
@[simp] theorem loadRegs_phase (key iv : Key) (m : State) : (loadRegs key iv m).phase = .warmup := rfl
@[simp] theorem loadRegs_rem (key iv : Key) (m : State) : (loadRegs key iv m).rem = 1152 := rfl
@[simp] theorem loadRegs_pend (key iv : Key) (m : State) : (loadRegs key iv m).pend = m.pend := rfl
@[simp] theorem loadRegs_acc (key iv : Key) (m : State) : (loadRegs key iv m).acc = m.acc := rfl
@[simp] theorem loadRegs_ksData (key iv : Key) (m : State) : (loadRegs key iv m).ksData = m.ksData := rfl
@[simp] theorem loadRegs_ksValid (key iv : Key) (m : State) : (loadRegs key iv m).ksValid = m.ksValid := rfl
@[simp] theorem loadRegs_rej (key iv : Key) (m : State) : (loadRegs key iv m).rej = m.rej := rfl
@[simp] theorem loadRegs_errCode (key iv : Key) (m : State) : (loadRegs key iv m).errCode = m.errCode := rfl
@[simp] theorem loadRegs_cfg (key iv : Key) (m : State) : (loadRegs key iv m).cfg = m.cfg := rfl
@[simp] theorem loadRegs_ports (key iv : Key) (m : State) : (loadRegs key iv m).ports = m.ports := rfl
@[simp] theorem loadRegs_feed (key iv : Key) (m : State) : (loadRegs key iv m).feed = m.feed := rfl

@[simp] theorem resetEdge_sreg (m : State) : (resetEdge m).sreg = 0 := rfl
@[simp] theorem resetEdge_pad (m : State) : (resetEdge m).pad = 0 := rfl
@[simp] theorem resetEdge_phase (m : State) : (resetEdge m).phase = .unloaded := rfl
@[simp] theorem resetEdge_rem (m : State) : (resetEdge m).rem = 0 := rfl
@[simp] theorem resetEdge_pend (m : State) : (resetEdge m).pend = 0 := rfl
@[simp] theorem resetEdge_acc (m : State) : (resetEdge m).acc = 0 := rfl
@[simp] theorem resetEdge_ksData (m : State) : (resetEdge m).ksData = 0 := rfl
@[simp] theorem resetEdge_ksValid (m : State) : (resetEdge m).ksValid = false := rfl
@[simp] theorem resetEdge_rej (m : State) : (resetEdge m).rej = false := rfl
@[simp] theorem resetEdge_errCode (m : State) : (resetEdge m).errCode = none := rfl
@[simp] theorem resetEdge_cfg (m : State) : (resetEdge m).cfg = m.cfg := rfl
@[simp] theorem resetEdge_ports (m : State) : (resetEdge m).ports = m.ports := rfl
@[simp] theorem resetEdge_feed (m : State) : (resetEdge m).feed = m.feed := rfl

@[simp] theorem nextInputs_sreg (m : State) : (nextInputs m).sreg = m.sreg := rfl
@[simp] theorem nextInputs_pad (m : State) : (nextInputs m).pad = m.pad := rfl
@[simp] theorem nextInputs_phase (m : State) : (nextInputs m).phase = m.phase := rfl
@[simp] theorem nextInputs_rem (m : State) : (nextInputs m).rem = m.rem := rfl
@[simp] theorem nextInputs_pend (m : State) : (nextInputs m).pend = m.pend := rfl
@[simp] theorem nextInputs_acc (m : State) : (nextInputs m).acc = m.acc := rfl
@[simp] theorem nextInputs_ksData (m : State) : (nextInputs m).ksData = m.ksData := rfl
@[simp] theorem nextInputs_ksValid (m : State) : (nextInputs m).ksValid = m.ksValid := rfl
@[simp] theorem nextInputs_rej (m : State) : (nextInputs m).rej = m.rej := rfl
@[simp] theorem nextInputs_errCode (m : State) : (nextInputs m).errCode = m.errCode := rfl
@[simp] theorem nextInputs_cfg (m : State) : (nextInputs m).cfg = m.cfg := rfl
@[simp] theorem nextInputs_ports (m : State) : (nextInputs m).ports = m.feed.headD .idle := rfl
@[simp] theorem nextInputs_feed (m : State) : (nextInputs m).feed = m.feed.tail := rfl

@[simp] theorem drive_sreg (m : State) (is : List Inputs) : (drive m is).sreg = m.sreg := rfl
@[simp] theorem drive_pad (m : State) (is : List Inputs) : (drive m is).pad = m.pad := rfl
@[simp] theorem drive_phase (m : State) (is : List Inputs) : (drive m is).phase = m.phase := rfl
@[simp] theorem drive_rem (m : State) (is : List Inputs) : (drive m is).rem = m.rem := rfl
@[simp] theorem drive_pend (m : State) (is : List Inputs) : (drive m is).pend = m.pend := rfl
@[simp] theorem drive_acc (m : State) (is : List Inputs) : (drive m is).acc = m.acc := rfl
@[simp] theorem drive_ksData (m : State) (is : List Inputs) : (drive m is).ksData = m.ksData := rfl
@[simp] theorem drive_ksValid (m : State) (is : List Inputs) : (drive m is).ksValid = m.ksValid := rfl
@[simp] theorem drive_rej (m : State) (is : List Inputs) : (drive m is).rej = m.rej := rfl
@[simp] theorem drive_errCode (m : State) (is : List Inputs) : (drive m is).errCode = m.errCode := rfl
@[simp] theorem drive_cfg (m : State) (is : List Inputs) : (drive m is).cfg = m.cfg := rfl
@[simp] theorem drive_ports (m : State) (is : List Inputs) : (drive m is).ports = is.headD .idle := rfl
@[simp] theorem drive_feed (m : State) (is : List Inputs) : (drive m is).feed = is.tail := rfl

end Sys2Proof.Machine
end

