-- ==== Sys2Proof/Laws/Ops.lean ====
section
/-! SUPPORT. Laws/Ops: once for each shared operation, everything it can do; callers cite these lemmas. -/

namespace Sys2Proof.Machine

/-! ### Ready, busy and offering -/

theorem cmdReady_iff (m : State) : cmdReady m = true ↔ m.phase ≠ .warmup ∧ m.pend = 0 := by simp [cmdReady]

theorem not_cmdReady_iff (m : State) : cmdReady m = false ↔ m.phase = .warmup ∨ 0 < m.pend := by
  rw [← Bool.not_eq_true, cmdReady_iff]
  by_cases h : m.phase = .warmup <;> simp [h, Nat.pos_iff_ne_zero]

/-- What an edge without an accepted command does (70_reset_and_hazards.md R246). -/
theorem quietEdge_cases (m : State) :
    (m.phase = .warmup ∧ quietEdge m = warmupCycle (clearStrobes m)) ∨
    (m.phase ≠ .warmup ∧ 0 < m.pend ∧ quietEdge m = splitSecond (clearStrobes m)) ∨
    (cmdReady m = true ∧ quietEdge m = clearStrobes m) := by
  unfold quietEdge
  by_cases h : m.phase = .warmup
  · simp [h]
  · by_cases h' : 0 < m.pend
    · simp [h, h']
    · simp [h, cmdReady_iff, Nat.eq_zero_of_not_pos h']

/-- A warm-up edge, written out. -/
theorem quietEdge_of_warmup {m : State} (h : m.phase = .warmup) :
    quietEdge m =
      { m with
        sreg := (batch m.sreg (min m.rem (nmax m.cfg))).2, pad := 0, rem := m.rem - min m.rem (nmax m.cfg),
        phase := if m.rem ≤ nmax m.cfg then .warmedUp else .warmup, ksValid := false, rej := false } := by
  have hz : (m.rem - min m.rem (nmax m.cfg) = 0) = (m.rem ≤ nmax m.cfg) := by apply propext; omega
  rw [quietEdge, if_pos h]
  simp only [warmupCycle, updateReg, clearStrobes, hz, h]

/-- The second half of a split extraction, written out. -/
theorem quietEdge_of_pend {m : State} (h : m.phase ≠ .warmup) (h' : 0 < m.pend) :
    quietEdge m =
      { m with
        sreg := (batch m.sreg m.pend).2, pad := 0, pend := 0,
        ksData := toWord m.cfg (m.acc ||| (updateOut m.pend m <<< nmax m.cfg)), ksValid := true, rej := false,
        phase := .running } := by
  rw [quietEdge, if_neg h, if_pos h']
  rfl

theorem quietEdge_of_ready {m : State} (h : cmdReady m = true) : quietEdge m = clearStrobes m := by
  obtain ⟨h1, h2⟩ := (cmdReady_iff m).mp h
  simp [quietEdge, h1, h2]

theorem offer_of_ready {m : State} (h : cmdReady m = true) (body : State → Host.Outcome State Fault Refusal) :
    offer m body = body (clearStrobes m) := if_pos h

theorem offer_of_busy {m : State} (h : cmdReady m = false) (body : State → Host.Outcome State Fault Refusal) :
    offer m body = .next (quietEdge m) := by simp [offer, h]

/-- An extraction that passes its checks is done in one cycle or begun in the first of two. -/
theorem extract_cases (k : Nat) (m : State) :
    (k ≤ nmax m.cfg ∧ extract k m = extractOne k m) ∨ (nmax m.cfg < k ∧ extract k m = splitFirst k m) := by
  unfold extract
  by_cases h : k ≤ nmax m.cfg
  · exact .inl ⟨h, if_pos h⟩
  · exact .inr ⟨by omega, if_neg h⟩

/-! ### What each command does at an edge that can accept it -/

/-- An extraction command's checks give the cause of 60_exceptions.md R202. -/
theorem extractChecked_eq (i : Instr) (inRange : Bool) (m : State)
    (h : checkExtract inRange m = cause m.cfg m.phase i) (k : Nat) :
    extractChecked inRange k m =
      match cause m.cfg m.phase i with
      | some c => reject c m
      | none => extract k m := by
  cases hc : cause m.cfg m.phase i <;> simp [extractChecked, h, hc]

theorem checkExtract_bits (n : Nat) (m : State) :
    checkExtract (bitsInRange m.cfg n) m = cause m.cfg m.phase (.nextBits n) := by
  simp only [checkExtract, bitsInRange, cause, Bool.and_eq_true, decide_eq_true_eq]

theorem checkExtract_bytes (n : Nat) (m : State) :
    checkExtract (bytesInRange m.cfg n) m = cause m.cfg m.phase (.nextBytes n) := by
  simp only [checkExtract, bytesInRange, cause, Bool.and_eq_true, decide_eq_true_eq]

theorem checkExtract_bit (n : Nat) (m : State) : checkExtract true m = cause m.cfg m.phase (.nextBit n) := rfl

theorem checkExtract_byte (n : Nat) (m : State) : checkExtract true m = cause m.cfg m.phase (.nextByte n) := rfl

/-- A rejected command. -/
theorem exec_rejected {i : Instr} {s : State} {c : Cause} (h : cmdReady s = true)
    (hc : cause s.cfg s.phase i = some c) : exec i s = .next (reject c (clearStrobes s)) := by
  cases i with
  | nop n => simp [cause] at hc
  | load n => simp [cause] at hc
  | nextBit n =>
    have := extractChecked_eq (.nextBit n) true (clearStrobes s) (checkExtract_bit n _) 1
    simp only [exec, execNextBit, offer_of_ready h, this, clearStrobes_cfg, clearStrobes_phase, hc]
  | nextByte n =>
    have := extractChecked_eq (.nextByte n) true (clearStrobes s) (checkExtract_byte n _) 8
    simp only [exec, execNextByte, offer_of_ready h, this, clearStrobes_cfg, clearStrobes_phase, hc]
  | nextBits n =>
    have := extractChecked_eq (.nextBits n) _ (clearStrobes s) (checkExtract_bits n _) n
    simp only [clearStrobes_cfg, clearStrobes_phase, hc] at this
    simp only [exec, execNextBits, offer_of_ready h, clearStrobes_cfg, this]
  | nextBytes n =>
    have := extractChecked_eq (.nextBytes n) _ (clearStrobes s) (checkExtract_bytes n _) (8 * n)
    simp only [clearStrobes_cfg, clearStrobes_phase, hc] at this
    simp only [exec, execNextBytes, offer_of_ready h, clearStrobes_cfg, this]
  | reserved110 n =>
    simp only [cause, Option.some.injEq] at hc
    simp only [exec, execReserved110, offer_of_ready h, hc]
  | reserved111 n =>
    simp only [cause, Option.some.injEq] at hc
    simp only [exec, execReserved111, offer_of_ready h, hc]

/-- An extraction that is not rejected. -/
theorem exec_extraction {i : Instr} {s : State} (h : cmdReady s = true) (hi : isExtraction i = true)
    (hc : cause s.cfg s.phase i = none) : exec i s = .next (extract (resultBits i) (clearStrobes s)) := by
  cases i with
  | nop n => simp [isExtraction] at hi
  | load n => simp [isExtraction] at hi
  | nextBit n =>
    have := extractChecked_eq (.nextBit n) true (clearStrobes s) (checkExtract_bit n _) 1
    simp only [exec, execNextBit, offer_of_ready h, this, clearStrobes_cfg, clearStrobes_phase, hc, resultBits]
  | nextByte n =>
    have := extractChecked_eq (.nextByte n) true (clearStrobes s) (checkExtract_byte n _) 8
    simp only [exec, execNextByte, offer_of_ready h, this, clearStrobes_cfg, clearStrobes_phase, hc, resultBits]
  | nextBits n =>
    have := extractChecked_eq (.nextBits n) _ (clearStrobes s) (checkExtract_bits n _) n
    simp only [clearStrobes_cfg, clearStrobes_phase, hc] at this
    simp only [exec, execNextBits, offer_of_ready h, clearStrobes_cfg, this, resultBits]
  | nextBytes n =>
    have := extractChecked_eq (.nextBytes n) _ (clearStrobes s) (checkExtract_bytes n _) (8 * n)
    simp only [clearStrobes_cfg, clearStrobes_phase, hc] at this
    simp only [exec, execNextBytes, offer_of_ready h, clearStrobes_cfg, this, resultBits]
  | reserved110 n => simp [isExtraction] at hi
  | reserved111 n => simp [isExtraction] at hi

/-- While the block is busy, whatever is offered is held off (70_reset_and_hazards.md R245). -/
theorem exec_busy (i : Instr) {s : State} (h : cmdReady s = false) : exec i s = .next (quietEdge s) := by
  cases i with
  | nop n => simp only [exec, execNop, offer_of_busy h]
  | load n => simp only [exec, execLoad, offer_of_busy h]
  | nextBit n => simp only [exec, execNextBit, offer_of_busy h]
  | nextByte n => simp only [exec, execNextByte, offer_of_busy h]
  | nextBits n => simp only [exec, execNextBits, offer_of_busy h]
  | nextBytes n => simp only [exec, execNextBytes, offer_of_busy h]
  | reserved110 n => simp only [exec, execReserved110, offer_of_busy h]
  | reserved111 n => simp only [exec, execReserved111, offer_of_busy h]

theorem exec_nop_ready (n : Nat) {s : State} (h : cmdReady s = true) : exec (.nop n) s = .next (clearStrobes s) :=
  offer_of_ready h _

theorem exec_load_ready (n : Nat) {s : State} {key iv : Key} (h : cmdReady s = true) (hk : s.ports.keyIn = some key)
    (hv : s.ports.ivIn = some iv) : exec (.load n) s = .next (loadRegs key iv (clearStrobes s)) := by
  simp only [exec, execLoad, offer_of_ready h, clearStrobes_ports, hk, hv]

/-- Everything an edge at which a command is offered can do. -/
theorem exec_next {i : Instr} {s t : State} (h : exec i s = .next t) :
    (cmdReady s = false ∧ t = quietEdge s) ∨
    (cmdReady s = true ∧ ∃ c, cause s.cfg s.phase i = some c ∧ t = reject c (clearStrobes s)) ∨
    (cmdReady s = true ∧ (∃ n, i = .nop n) ∧ t = clearStrobes s) ∨
    (cmdReady s = true ∧ (∃ n, i = .load n) ∧ ∃ key iv, s.ports.keyIn = some key ∧ s.ports.ivIn = some iv ∧
      t = loadRegs key iv (clearStrobes s)) ∨
    (cmdReady s = true ∧ isExtraction i = true ∧ cause s.cfg s.phase i = none ∧
      t = extract (resultBits i) (clearStrobes s)) := by
  cases hr : cmdReady s with
  | false => exact .inl ⟨rfl, by rw [exec_busy i hr] at h; cases h; rfl⟩
  | true =>
    right
    cases hc : cause s.cfg s.phase i with
    | some c => exact .inl ⟨rfl, c, rfl, by rw [exec_rejected hr hc] at h; cases h; rfl⟩
    | none =>
      right
      by_cases hi : isExtraction i = true
      · exact .inr (.inr ⟨rfl, hi, rfl, by rw [exec_extraction hr hi hc] at h; cases h; rfl⟩)
      · cases i with
        | nop n => exact .inl ⟨rfl, ⟨n, rfl⟩, by rw [exec_nop_ready n hr] at h; cases h; rfl⟩
        | load n =>
          refine .inr (.inl ⟨rfl, ⟨n, rfl⟩, ?_⟩)
          cases hk : s.ports.keyIn with
          | none => simp [exec, execLoad, offer_of_ready hr, hk] at h
          | some key =>
            cases hv : s.ports.ivIn with
            | none => simp [exec, execLoad, offer_of_ready hr, hk, hv] at h
            | some iv => exact ⟨key, iv, rfl, rfl, by rw [exec_load_ready n hr hk hv] at h; cases h; rfl⟩
        | nextBit n => simp [isExtraction] at hi
        | nextByte n => simp [isExtraction] at hi
        | nextBits n => simp [isExtraction] at hi
        | nextBytes n => simp [isExtraction] at hi
        | reserved110 n => simp [cause] at hc
        | reserved111 n => simp [cause] at hc

/-- The host's inputs and the parameters are no command's to change. -/
theorem quietEdge_frame (m : State) :
    (quietEdge m).cfg = m.cfg ∧ (quietEdge m).ports = m.ports ∧ (quietEdge m).feed = m.feed := by
  obtain ⟨-, h⟩ | ⟨-, -, h⟩ | ⟨-, h⟩ := quietEdge_cases m <;> simp [h]

theorem extract_frame (k : Nat) (m : State) :
    (extract k m).cfg = m.cfg ∧ (extract k m).ports = m.ports ∧ (extract k m).feed = m.feed := by
  obtain ⟨-, h⟩ | ⟨-, h⟩ := extract_cases k m <;> simp [h]

/-! ### The inputs matter to a command only through key and IV -/

theorem nextInputs_quietEdge_ports (s : State) (p : Inputs) :
    nextInputs (quietEdge { s with ports := p }) = nextInputs (quietEdge s) := by
  unfold quietEdge
  by_cases h : s.phase = .warmup
  · rw [if_pos h, if_pos h]; rfl
  · by_cases h' : 0 < s.pend
    · rw [if_neg h, if_neg h, if_pos h', if_pos h']; rfl
    · rw [if_neg h, if_neg h, if_neg h', if_neg h']; rfl

/-- Two sets of inputs with the same key and IV give the same outcome of a command. -/
theorem settle_exec_ports (i : Instr) (s : State) (p : Inputs) (hk : p.keyIn = s.ports.keyIn)
    (hv : p.ivIn = s.ports.ivIn) : settle (exec i { s with ports := p }) = settle (exec i s) := by
  have hready : cmdReady { s with ports := p } = cmdReady s := rfl
  cases hr : cmdReady s with
  | false =>
    rw [exec_busy i hr, exec_busy i (hready.trans hr)]
    simp only [settle, nextInputs_quietEdge_ports]
  | true =>
    cases hc : cause s.cfg s.phase i with
    | some c => rw [exec_rejected hr hc, exec_rejected (s := { s with ports := p }) (hready.trans hr) hc]; rfl
    | none =>
      by_cases hi : isExtraction i = true
      · rw [exec_extraction hr hi hc, exec_extraction (s := { s with ports := p }) (hready.trans hr) hi hc]
        unfold extract
        by_cases hn : resultBits i ≤ nmax s.cfg
        · rw [if_pos (by exact hn), if_pos (by exact hn)]; rfl
        · rw [if_neg (by exact hn), if_neg (by exact hn)]; rfl
      · cases i with
        | nop n => rw [exec_nop_ready n hr, exec_nop_ready n (hready.trans hr)]; rfl
        | load n =>
          simp only [exec, execLoad, offer_of_ready hr, offer_of_ready (hready.trans hr), clearStrobes_ports, hk, hv]
          rcases s.ports.keyIn with _ | k <;> rcases s.ports.ivIn with _ | v <;> rfl
        | nextBit n => simp [isExtraction] at hi
        | nextByte n => simp [isExtraction] at hi
        | nextBits n => simp [isExtraction] at hi
        | nextBytes n => simp [isExtraction] at hi
        | reserved110 n => simp [cause] at hc
        | reserved111 n => simp [cause] at hc

/-! ### The step -/

theorem settle_next {o : Host.Outcome State Fault Refusal} {t : State} (h : settle o = .next t) :
    ∃ m, o = .next m ∧ t = nextInputs m := by
  cases o with
  | next m => exact ⟨m, rfl, by cases h; rfl⟩
  | fault f => cases h
  | refused r => cases h

/-- What the ports say, by cases. -/
theorem sample_cases (m : State) :
    (∃ p, sample m = .undefined p) ∨
    (m.ports.rst = some true ∧ m.ports.cmdValid ≠ none ∧ sample m = .reset) ∨
    (m.ports.rst = some false ∧ sample m = .quiet ∧
      (m.ports.cmdValid = some false ∨
        m.ports.cmdValid = some true ∧ m.ports.cmd = none ∧ cmdReady m = false)) ∨
    (∃ w, m.ports.rst = some false ∧ m.ports.cmdValid = some true ∧ m.ports.cmd = some w ∧
      sample m = .command w) := by
  unfold sample
  rcases m.ports.rst with _ | _ | _ <;> rcases m.ports.cmdValid with _ | _ | _ <;>
    rcases m.ports.cmd with _ | w <;> cases cmdReady m <;> simp

/-- Everything a step can do: a reset edge, an edge with nothing to accept, or an edge at which a command is
offered; then the host's next inputs come. -/
theorem step_next {s t : State} (h : step s = .next t) :
    (s.ports.rst = some true ∧ s.ports.cmdValid ≠ none ∧ t = nextInputs (resetEdge s)) ∨
    (s.ports.rst = some false ∧ sample s = .quiet ∧ t = nextInputs (quietEdge s)) ∨
    (∃ w m, s.ports.rst = some false ∧ s.ports.cmdValid = some true ∧ s.ports.cmd = some w ∧
      sample s = .command w ∧ exec (decode w) s = .next m ∧ t = nextInputs m) := by
  unfold step at h
  obtain ⟨p, hs⟩ | ⟨hr, hv, hs⟩ | ⟨hr, hs, -⟩ | ⟨w, hr, hv, hw, hs⟩ := sample_cases s
  · rw [hs] at h; cases h
  · rw [hs] at h; cases h; exact .inl ⟨hr, hv, rfl⟩
  · rw [hs] at h; cases h; exact .inr (.inl ⟨hr, hs, rfl⟩)
  · rw [hs] at h
    obtain ⟨m, hm, rfl⟩ := settle_next h
    exact .inr (.inr ⟨w, m, hr, hv, hw, hs, hm, rfl⟩)

end Sys2Proof.Machine
end

