-- ==== Sys2Proof/Laws/PerInstr.lean ====
section
/-! SUPPORT. Laws/PerInstr: statements about each command as syntax, one lemma per constructor. -/

/-- The encoder puts OP on `cmd[2:0]` and N on `cmd[9:3]` (30_encoding.md R71). -/
def Sys2Proof.Laws.EncodedFields.Statement (i : Sys2Proof.Instr) : Prop :=
  i.WellFormed →
    Sys2Proof.cmdOp (Sys2Proof.encode i) = (Sys2Proof.opcode i).toNat ∧
      Sys2Proof.cmdCount (Sys2Proof.encode i) = i.count

namespace Sys2Proof.Laws.EncodedFields

theorem of_any (i : Instr) : Statement i := by
  intro h
  have hop : (encode i).extractLsb' 0 3 = opcode i := by
    apply BitVec.eq_of_getLsbD_eq
    intro j hj
    simp only [encode, BitVec.getLsbD_extractLsb', BitVec.getLsbD_or, BitVec.getLsbD_shiftLeft,
      BitVec.getLsbD_setWidth]
    simp [hj, show j < 10 by omega]
  have hcount : (encode i).extractLsb' 3 7 = BitVec.ofNat 7 i.count := by
    apply BitVec.eq_of_getLsbD_eq
    intro j hj
    simp only [encode, BitVec.getLsbD_extractLsb', BitVec.getLsbD_or, BitVec.getLsbD_shiftLeft,
      BitVec.getLsbD_setWidth, BitVec.getLsbD_ofNat, BitVec.getLsbD_of_ge (opcode i) (3 + j) (by omega)]
    simp [hj, show 3 + j < 10 by omega, show j < 10 by omega, show 3 + j - 3 = j by omega]
  refine ⟨congrArg BitVec.toNat hop, ?_⟩
  rw [cmdCount, hcount, BitVec.toNat_ofNat]
  exact Nat.mod_eq_of_lt h

theorem nop (n : Nat) : Statement (.nop n) := of_any _
theorem load (n : Nat) : Statement (.load n) := of_any _
theorem nextBit (n : Nat) : Statement (.nextBit n) := of_any _
theorem nextByte (n : Nat) : Statement (.nextByte n) := of_any _
theorem nextBits (n : Nat) : Statement (.nextBits n) := of_any _
theorem nextBytes (m : Nat) : Statement (.nextBytes m) := of_any _
theorem reserved110 (n : Nat) : Statement (.reserved110 n) := of_any _
theorem reserved111 (n : Nat) : Statement (.reserved111 n) := of_any _

end Sys2Proof.Laws.EncodedFields
end

