-- ==== Sys2Proof/Tests/Slice0.lean ====
section
/-! SUPPORT. Tests/Slice0: the model's own tests, and a witness for the hypotheses of every obligation that has any.
Expected values are the spec's: 95_test_vectors.md, 30_encoding.md R81, 40_datapath.md R118, 41_init.md R146. -/

namespace Sys2Proof.Tests

-- One thread: the many kernel evaluations below would each hold one.
set_option Elab.async false

open Sys2Proof Sys2Proof.Machine

/-! ### Helpers -/

/-- The four configurations (00_scope.md R6). -/
def w64n63 : Config := { word := .w64, cap := .wMinusOne }
def w64n64 : Config := { word := .w64, cap := .full }
def w32n31 : Config := { word := .w32, cap := .wMinusOne }
def w32n32 : Config := { word := .w32, cap := .full }

/-- Init of the all-zero key and IV, and of the second vector (41_init.md R146). -/
def initZero : SReg := 0x92AC487E267F5871D3A1896DF514AD2FEA84132040AE4058A21B38EC692AE61D74931A85
def initTwo : SReg := 0xBB0147E58AE7DD98E77AE9A1F9E67BE89A22F91276065DBE1BB82BD28C4F01F4EA1D624E

/-- A block right after the warm-up of the all-zero key and IV. -/
def keyed (c : Config) : State := { State.resetWith c with sreg := initZero, phase := .warmedUp }

/-- The same block after an extraction. -/
def used (c : Config) : State := { keyed c with phase := .running }

/-- A block in warm-up with `r` steps to do. -/
def warming (c : Config) (r : Nat) : State := { State.resetWith c with sreg := load 0 0, phase := .warmup, rem := r }

/-- The next state of an outcome. -/
def nextOf (o : Host.Outcome State Fault Refusal) : Option State :=
  match o with
  | .next m => some m
  | .fault _ => none
  | .refused _ => none

/-- The state with these set bits (95_test_vectors.md section 2.1). -/
def bitsAt (ps : List Nat) : SReg := sregOf fun p => ps.contains p

theorem exists_next {o : Host.Outcome State Fault Refusal} {p : State → Bool} (h : (nextOf o).any p = true) :
    ∃ t, o = .next t ∧ p t = true := by
  cases o with
  | next m => exact ⟨m, rfl, h⟩
  | fault f => cases f
  | refused r => simp [nextOf] at h

/-! ### Well-formedness and the encoding -/

theorem test_wellformed_largest_count : (Instr.nextBits 127).WellFormed := by decide
theorem test_illformed_count : ¬ (Instr.nop 128).WellFormed ∧ ¬ (Instr.load 128).WellFormed ∧
    ¬ (Instr.nextBit 128).WellFormed ∧ ¬ (Instr.nextByte 128).WellFormed ∧ ¬ (Instr.nextBits 128).WellFormed ∧
    ¬ (Instr.nextBytes 128).WellFormed ∧ ¬ (Instr.reserved110 128).WellFormed ∧
    ¬ (Instr.reserved111 128).WellFormed := by decide

/-- One word per constructor, N then OP (30_encoding.md R71, R72). -/
theorem test_decode_nop : decode 0b0000000_000 = .nop 0 := by decide
theorem test_decode_nop_ignored_count : decode 0b1010101_000 = .nop 85 := by decide
theorem test_decode_load : decode 0b1111111_001 = .load 127 := by decide
theorem test_decode_next_bit : decode 0b0000001_010 = .nextBit 1 := by decide
theorem test_decode_next_byte : decode 0b0100000_011 = .nextByte 32 := by decide
theorem test_decode_next_bits : decode 0b1000000_100 = .nextBits 64 := by decide
theorem test_decode_next_bytes : decode 0b0001000_101 = .nextBytes 8 := by decide
theorem test_decode_reserved110 : decode 0b1111111_110 = .reserved110 127 := by decide
theorem test_decode_reserved111 : decode 0b0000000_111 = .reserved111 0 := by decide

/-- Numbers above the 10-bit format are refused by name (30_encoding.md R78). -/
theorem test_decode_number :
    decodeNumber 1023 = .ok (.reserved111 127) ∧ decodeNumber 1024 = .error .notTenBits := ⟨rfl, rfl⟩
theorem test_decode_table_word :
    decodeTableWord 10 0x204 = some (.nextBits 64) ∧ decodeTableWord 16 0x204 = some (.nextBits 64) ∧
    decodeTableWord 3 0x005 = some (.nextBytes 0) ∧ decodeTableWord 16 0x400 = none := by decide

/-- A table word runs as the first command after reset (95_test_vectors.md section 2.6, first and third rows). -/
theorem test_fetch_after_reset :
    (nextOf (step (State.reset.withFetchWord 10 0x002))).any
      (fun t => t.rej && t.errCode == some .notReady) = true ∧
    (nextOf (step (State.reset.withFetchWord 10 0x007))).any
      (fun t => t.rej && t.errCode == some .illegalOp) = true ∧
    (nextOf (step (State.reset.withFetchWord 10 0x001))).any
      (fun t => t.phase == .warmup && t.rem == 1152) = true := by decide +kernel

/-- The assembler's text (30_encoding.md R79, R81; 95_test_vectors.md P2, 2.6). -/
theorem test_parse_load :
    parseLine "LOAD key=5FE52A8075DA10AD46F0, iv=E3069F49D423BA6FF114".toList =
      some (some (.load [0x5F, 0xE5, 0x2A, 0x80, 0x75, 0xDA, 0x10, 0xAD, 0x46, 0xF0]
        [0xE3, 0x06, 0x9F, 0x49, 0xD4, 0x23, 0xBA, 0x6F, 0xF1, 0x14])) := by decide +kernel
theorem test_parse_lines :
    parseLine "  NEXT_BITS 63 ; a comment".toList = some (some (.nextBits 63)) ∧
    parseLine "NEXT_BYTES 0".toList = some (some (.nextBytes 0)) ∧
    parseLine ".cmd 0x3F9".toList = some (some (.cmd 0x3F9)) ∧ parseLine ".cmd 0x400".toList = none ∧
    parseLine "NEXT_BITS".toList = none ∧ parseLine "; a comment".toList = some none := by decide +kernel
theorem test_parse_numbers :
    hexDigit '0' = some 0 ∧ hexDigit '9' = some 9 ∧ hexDigit 'A' = some 10 ∧ hexDigit 'f' = some 15 ∧
    hexDigit 'G' = none ∧ numberOf 10 "127".toList = some 127 ∧ numberOf 10 "1F".toList = none ∧
    numberOf 16 "3F9".toList = some 0x3F9 ∧ numberOf 16 [] = none := by decide +kernel
/-- The model's choice of notes/assumptions/16.md: a `.cmd` line that spells a LOAD carries no key and no IV; with both on
the ports the same word is a LOAD like any other (95_test_vectors.md section 2.4). -/
theorem test_cmd_line_of_a_load :
    (assemble (.cmd 0x3F9)).keyIn = none ∧ (assemble (.cmd 0x3F9)).ivIn = none ∧
    (nextOf (step { State.reset with ports := assemble (.cmd 0x3F9) })).isNone = true ∧
    (nextOf (step { State.reset with
      ports := { assemble (.cmd 0x3F9) with keyIn := some 0, ivIn := some 0 } })).any
      (fun t => t.phase == .warmup && t.sreg == load 0 0) = true := by decide +kernel
theorem test_assembled_words :
    asmWord (.nextBits 64) = 0x204 ∧ asmWord (.nextBytes 9) = 0x04D ∧ asmWord (.load [] []) = 0x001 ∧
    (assemble (.load [0x5F, 0xE5, 0x2A, 0x80, 0x75, 0xDA, 0x10, 0xAD, 0x46, 0xF0] [])).keyIn =
      some 0xF046AD10DA75802AE55F := by decide +kernel

/-! ### Datapath: 95_test_vectors.md sections 2.1 to 2.3 -/

theorem test_step1_all_ones :
    step1 (BitVec.allOnes 288) =
      (false, 0xFFFFFFFFFFFFFFFFFFFFFFFFFFFDFFFFFFFFFFFFFFFFFFFFDFFFFFFFFFFFFFFFFFFFFFFE) := by decide +kernel
theorem test_step1_and_terms :
    step1 (bitsAt [91, 92]) =
      (false, 0x000000000000000000000000000000000000000000000000380000000000000000000000) ∧
    step1 (bitsAt [175, 176]) =
      (false, 0x000000000000000000000000000380000000000000000000000000000000000000000000) ∧
    step1 (bitsAt [286, 287]) =
      (false, 0xC00000000000000000000000000000000000000000000000000000000000000000000001) := by decide +kernel
theorem test_step1_output_taps :
    step1 (bitsAt [66]) =
      (true, 0x000000000000000000000000000000000000000000000000200000040000000000000000) ∧
    step1 (bitsAt [288]) =
      (true, 0x000000000000000000000000000000000000000000000000000000000000000000000001) ∧
    step1 (bitsAt [93, 177]) =
      (false, 0x000000000000000000000000000200000000000000000000200000000000000000000000) := by decide +kernel
theorem test_step1_cross_segment_taps :
    step1 (bitsAt [69]) =
      (false, 0x000000000000000000000000000000000000000000000000000000200000000000000001) ∧
    step1 (bitsAt [171]) =
      (false, 0x000000000000000000000000000008000000000000000000200000000000000000000000) ∧
    step1 (bitsAt [264]) =
      (false, 0x000001000000000000000000000200000000000000000000000000000000000000000000) := by decide +kernel
theorem test_step1_first_of_warm_up :
    step1 (load 0 0) =
      (true, 0xC00000000000000000000000000000000000000000000000000000000000000000000000) := by decide +kernel
theorem test_slices :
    (slice initZero 66 8, slice initZero 69 8, slice initZero 91 8, slice initZero 92 8, slice initZero 93 8) =
      (0x58, 0xC6, 0xC2, 0x84, 0x08) ∧
    (slice initZero 162 8, slice initZero 171 8, slice initZero 175 8, slice initZero 176 8, slice initZero 177 8) =
      (0x5F, 0xA5, 0x5A, 0xB5, 0x6A) ∧
    (slice initZero 243 8, slice initZero 264 8, slice initZero 286 8, slice initZero 287 8, slice initZero 288 8) =
      (0xD7, 0x7E, 0x52, 0xA4, 0x49) := by decide +kernel
theorem test_combine :
    (combine fun p => slice initZero p 31).t1 = 0x4744B275#31 ∧
    (combine fun p => slice initZero p 31).t2 = 0x4B72F85B#31 ∧
    (combine fun p => slice initZero p 31).t3 = 0x43A4DF58#31 := by decide +kernel
theorem test_batch_8 :
    batch initZero 8 =
      (0xFB#8, 0xAC487E267F5871D3A1896DF515B52FEA84132040AE4058B5DB38EC692AE61D74931A851A) := by decide +kernel
theorem test_batch_31 :
    batch initZero 31 =
      (0x26BFE0FB#31, 0x133FAC38E9D0C4B6FA8ADA1F4ED209902057202C5AE4D22E3495730EBA498D428D7D92E1) := by
  decide +kernel
theorem test_batch_63 :
    batch initZero 63 =
      (0x1B05595826BFE0FB#63, 0xE9D0C4B6FA8ADA1F4ED26A6811C5202C5AE4D22E27077A205A498D428D7D92E17A052F62) := by
  decide +kernel
theorem test_packed_words_32 :
    pack 32 initZero 0 =
      [0xA158C92E, 0xB8675496, 0x371CD845, 0x1A027502, 0x04C82157, 0xF4B528AF, 0xB69185CB, 0x8E1AFE64,
        0x7E123549] := by decide +kernel
theorem test_packed_words_64 :
    pack 64 initTwo 0 =
      [0x7246B8572F80F231, 0x4BD41DD87DBA606E, 0x489F445917DE679F, 0x85975EE719BBE751, 0xA7E280DD00000000] := by
  decide +kernel
theorem test_packed_slices :
    packedSlice (pack 32 initZero 0) 66 8 = 0x58 ∧ packedSlice (pack 64 initZero 0) 162 8 = 0x5F ∧
    packedSlice (pack 32 initZero 0) 243 31 = 0x2E5C70D7 ∧ packedSlice (pack 64 initZero 0) 288 31 = 0x7E123549 := by
  decide +kernel

/-- The tap-selector constants, k then o at each width (40_datapath.md R118). -/
theorem test_tap_constants_32 :
    ([66, 69, 91, 92, 93, 162, 171, 175, 176, 177, 243, 264, 286, 287, 288].map
      fun p => (wordIndex 32 p, wordOffset 32 p)) =
      [(2, 30), (2, 27), (2, 5), (2, 4), (2, 3), (5, 30), (5, 21), (5, 17), (5, 16), (5, 15), (7, 13), (8, 24),
        (8, 2), (8, 1), (8, 0)] := by decide
theorem test_tap_constants_64 :
    ([66, 69, 91, 92, 93, 162, 171, 175, 176, 177, 243, 264, 286, 287, 288].map
      fun p => (wordIndex 64 p, wordOffset 64 p)) =
      [(1, 62), (1, 59), (1, 37), (1, 36), (1, 35), (2, 30), (2, 21), (2, 17), (2, 16), (2, 15), (3, 13), (4, 56),
        (4, 34), (4, 33), (4, 32)] := by decide

/-- One packed update at each width against the next state of the logical batch (95_test_vectors.md section 2.2). -/
theorem test_packed_update :
    packedUpdate (pack 32 initZero 0) 31 =
      (0x26BFE0FB#31,
        pack 32 0x133FAC38E9D0C4B6FA8ADA1F4ED209902057202C5AE4D22E3495730EBA498D428D7D92E1 0) ∧
    packedUpdate (pack 64 initZero 0) 63 =
      (0x1B05595826BFE0FB#63,
        pack 64 0xE9D0C4B6FA8ADA1F4ED26A6811C5202C5AE4D22E27077A205A498D428D7D92E17A052F62 0) := by decide +kernel

/-! ### One edge of each command (95_test_vectors.md sections 2.4 to 2.6) -/

theorem test_nop :
    (nextOf (step (offerWord { used w64n63 with ksValid := true, rej := true } 0x3F8))).any
      (fun t => t.sreg == initZero && t.phase == .running && !t.ksValid && !t.rej && t.errCode == none) = true := by
  decide +kernel
theorem test_load :
    (nextOf (step { used w64n63 with ports := assemble (.load [0x5F, 0xE5, 0x2A, 0x80, 0x75, 0xDA, 0x10, 0xAD, 0x46,
        0xF0] [0xE3, 0x06, 0x9F, 0x49, 0xD4, 0x23, 0xBA, 0x6F, 0xF1, 0x14]) })).any
      (fun t => t.sreg == 0xE000000000000000000000000000029E2DF7447A8933E0DC6000F046AD10DA75802AE55F &&
        t.phase == .warmup && t.rem == 1152 && !cmdReady t) = true := by decide +kernel
/-- The first step of the warm-up at NMAX = 31, and the last one of five steps (95_test_vectors.md P1). -/
theorem test_warm_up_edges :
    (nextOf (step (warming w32n31 1152))).any (fun t => t.rem == 1121 && t.phase == .warmup) = true ∧
    (nextOf (step (warming w32n31 5))).any (fun t => t.rem == 0 && t.phase == .warmedUp) = true := by decide +kernel
theorem test_next_bit :
    (nextOf (step (offerWord (keyed w32n31) 0x002))).any
      (fun t => t.ksData == 1 && t.ksValid && t.phase == .running) = true := by decide +kernel
theorem test_next_byte :
    (nextOf (step (offerWord (keyed w64n63) 0x003))).any
      (fun t => t.ksData == 0xFB && t.ksValid && t.phase == .running) = true := by decide +kernel
theorem test_next_bits_largest :
    (nextOf (step (offerWord (keyed w64n63) 0x1FC))).any (fun t => t.ksData == 0x1B05595826BFE0FB) = true ∧
    (nextOf (step (offerWord (keyed w32n31) 0x0FC))).any (fun t => t.ksData == 0x26BFE0FB) = true := by decide +kernel
/-- The same word at NMAX = W − 1 and NMAX = W (95_test_vectors.md section 2.6). -/
theorem test_next_bits_above_cap :
    (nextOf (step (offerWord (used w64n63) 0x204))).any (fun t => t.rej && t.errCode == some .badN) = true ∧
    (nextOf (step (offerWord (used w64n64) 0x204))).any (fun t => !t.rej && t.ksValid) = true := by decide +kernel
theorem test_next_bytes_one_cycle :
    (nextOf (step (offerWord (keyed w64n63) 0x025))).any (fun t => t.ksData == 0x26BFE0FB && t.ksValid) = true ∧
    (nextOf (step (offerWord (keyed w64n63) 0x02D))).any (fun t => t.ksData == 0x5826BFE0FB) = true ∧
    (nextOf (step (offerWord (used w32n31) 0x02D))).any (fun t => t.errCode == some .badN) = true := by
  decide +kernel
/-- The first edge of a split: 63 steps, no result yet; then its second edge. -/
theorem test_next_bytes_split :
    (nextOf (step (offerWord (keyed w64n63) 0x045))).any
      (fun t => t.acc == 0x1B05595826BFE0FB && t.pend == 1 && !t.ksValid && !cmdReady t && t.phase == .warmedUp) =
        true ∧
    (nextOf (step
      { keyed w64n63 with
        sreg := 0xE9D0C4B6FA8ADA1F4ED26A6811C5202C5AE4D22E27077A205A498D428D7D92E17A052F62,
        acc := 0x1B05595826BFE0FB, pend := 1 })).any
      (fun t => t.ksData == 0x1B05595826BFE0FB && t.ksValid && t.phase == .running && t.pend == 0 &&
        t.sreg == 0xD3A1896DF515B43E9DA4D4D023884058B5C9A45C4E0EF44094931A851AFB25C2F40A5EC4) = true := by
  decide +kernel
theorem test_reserved110 :
    (nextOf (step (offerWord (used w32n31) 0x3FE))).any
      (fun t => t.rej && t.errCode == some .illegalOp && t.sreg == initZero) = true := by decide +kernel
theorem test_reserved111 :
    (nextOf (step (offerWord { used w32n31 with errCode := some .notReady } 0x007))).any
      (fun t => t.rej && t.errCode == some .notReady) = true := by decide +kernel
/-- Zero counts are rejected, and NOT_READY comes before BAD_N (95_test_vectors.md section 2.6). -/
theorem test_zero_counts :
    (nextOf (step (offerWord (used w64n63) 0x004))).any (fun t => t.errCode == some .badN) = true ∧
    (nextOf (step (offerWord (used w64n63) 0x005))).any (fun t => t.errCode == some .badN) = true ∧
    (nextOf (step (offerWord (State.resetWith w64n63) 0x004))).any (fun t => t.errCode == some .notReady) = true := by
  decide +kernel
/-- A reset edge abandons a warm-up and drops the command offered there (70_reset_and_hazards.md R230). -/
theorem test_reset_wins :
    (nextOf (step { warming w64n63 900 with
      ports := { rst := some true, cmdValid := some true, cmd := some 0x007, keyIn := none, ivIn := none } })).any
      (fun t => t.phase == .unloaded && t.rem == 0 && t.errCode == none && t.sreg == 0 && cmdReady t) = true := by
  decide +kernel
/-- Undefined inputs: refused where the edge samples them, and only there (70_reset_and_hazards.md R259). -/
theorem test_undefined_inputs :
    (nextOf (step { State.reset with ports := { Inputs.idle with rst := none } })).isNone = true ∧
    (nextOf (step { State.reset with ports := { Inputs.idle with cmd := none } })).isSome = true ∧
    (nextOf (step { State.reset with
      ports := { rst := some false, cmdValid := some true, cmd := some 1, keyIn := none, ivIn := some 0 } })).isNone =
        true := by decide +kernel

/-! ### Witnesses: states and operands that meet the hypotheses of the obligations, one theorem per obligation,
with the boundary values of every clause -/

/-- `DecodeAndEncodeAreInverse`. -/
theorem test_witness_well_formed :
    (Instr.nop 0).WellFormed ∧ (Instr.load 127).WellFormed ∧ (Instr.nextBytes 127).WellFormed ∧
    (Instr.reserved111 127).WellFormed := by decide

/-- `IgnoredCountChangesNothing`. -/
theorem test_witness_ignored_count :
    (cmdOp 0x3F9 = cmdOp 0x001 ∧ cmdOp 0x001 ≠ 4 ∧ cmdOp 0x001 ≠ 5) ∧
    (cmdOp 0x3FF = cmdOp 0x007 ∧ cmdOp 0x007 ≠ 4 ∧ cmdOp 0x007 ≠ 5) ∧ 0 < 8 ∧ 7 < 8 := by decide

/-- `SingleStepBits`, `AllZeroAndAllOneStep`: the boundary positions. -/
theorem test_witness_positions :
    (2 ≤ 2 ∧ 2 ≤ 288 ∧ 2 ≠ 94 ∧ 2 ≠ 178) ∧ (2 ≤ 288 ∧ 288 ≤ 288 ∧ 288 ≠ 94 ∧ 288 ≠ 178) ∧ (1 ≤ 1 ∧ 1 ≤ 288) := by
  decide

/-- `SliceLaneIsTheBitItsStepReads`: the last exact lane in each of the three segments. -/
theorem test_witness_slice_lane :
    (65 < 66 ∧ 66 ≤ 288 ∧ (if 66 ≤ 93 then 1 else if 66 ≤ 177 then 94 else 178) + 65 ≤ 66) ∧
    (68 < 69 ∧ 162 ≤ 288 ∧ (if 162 ≤ 93 then 1 else if 162 ≤ 177 then 94 else 178) + 68 ≤ 162) ∧
    (110 < 111 ∧ 288 ≤ 288 ∧ (if 288 ≤ 93 then 1 else if 288 ≤ 177 then 94 else 178) + 110 ≤ 288) := by decide

/-- `BatchIsSingleSteps`. -/
theorem test_witness_batch : (1 ≤ 1 ∧ 1 ≤ 66) ∧ (1 ≤ 66 ∧ 66 ≤ 66) := by decide

/-- `RegisterFileHoldsTheState`, `PackedSliceIsSlice`, `PackedUpdateIsBatch`. -/
theorem test_witness_packed :
    (1 ≤ 1 ∧ 1 ≤ 288) ∧ (1 ≤ 288 ∧ 288 ≤ 288) ∧ w64n63.word = .w64 ∧ 31 < 32 ∧
    (1 ≤ 1 ∧ 1 ≤ wordBits w32n31) ∧ (1 ≤ 64 ∧ 64 ≤ wordBits w64n64) := by decide

/-- `LoadPlacesKeyAndIvBytes`. -/
theorem test_witness_key_bytes :
    (List.replicate 10 (0x5F#8)).length = 10 ∧ (List.replicate 10 (0xE3#8)).length = 10 ∧ 9 < 10 ∧ 7 < 8 ∧
    0 < 10 ∧ 0 < 8 ∧ 79 < 80 := by decide

/-- `LoadWritesEveryBit`, `LoadAccepted`: before the first LOAD, after the warm-up and after an extraction. -/
theorem test_witness_load :
    (let s := offerWord (State.resetWith w32n31) 0x001;
      cmdReady s = true ∧ s.ports.keyIn = some 0 ∧ s.ports.ivIn = some 0) ∧
    (let s := offerWord (keyed w64n64) 0x001;
      cmdReady s = true ∧ s.ports.keyIn = some 0 ∧ s.ports.ivIn = some 0) ∧
    (let s := offerWord (used w64n63) 0x3F9;
      cmdReady s = true ∧ s.ports.keyIn = some 0 ∧ s.ports.ivIn = some 0) := by decide

/-- `WarmupEdge`: more steps to do than one edge does, as many, and fewer. -/
theorem test_witness_warm_up :
    ((warming w64n63 64).phase = .warmup ∧ ¬ (warming w64n63 64).rem ≤ nmax w64n63) ∧
    ((warming w64n63 63).phase = .warmup ∧ (warming w64n63 63).rem ≤ nmax w64n63) ∧
    ((warming w64n63 1).phase = .warmup ∧ (warming w64n63 1).rem ≤ nmax w64n63) := by decide

/-- `LoadReachesWarmedUp`: with an idle host, and with a host that keeps offering a reserved word. -/
theorem test_witness_load_run :
    (let s := offerWord (State.resetWith w32n31) 0x001;
      cmdReady s = true ∧ cmdOp 0x001 = 1 ∧ s.ports.cmdValid = some true ∧ s.ports.cmd = some 0x001 ∧
      s.ports.keyIn = some 0 ∧ s.ports.ivIn = some 0 ∧ noReset (warmupCycles s.cfg + 1) s = true ∧
      1 ≤ warmupCycles s.cfg) ∧
    (let s := { offerWord (used w64n63) 0x3F9 with
        feed := List.replicate 19 { Inputs.idle with cmdValid := some true, cmd := some 0x007 } };
      cmdReady s = true ∧ cmdOp 0x3F9 = 1 ∧ s.ports.cmdValid = some true ∧ s.ports.cmd = some 0x3F9 ∧
      s.ports.keyIn = some 0 ∧ s.ports.ivIn = some 0 ∧ noReset (warmupCycles s.cfg + 1) s = true ∧
      1 ≤ warmupCycles s.cfg) := by decide

/-- The busy cycles of a warm-up (70_reset_and_hazards.md R251). -/
theorem test_warm_up_cycles :
    warmupCycles w32n31 = 38 ∧ warmupCycles w64n63 = 19 ∧ warmupCycles w32n32 = 36 ∧ warmupCycles w64n64 = 18 := by
  decide

/-- `NopChangesNothing`, `ReservedOpcodesRejected`, `IdleBlockHolds`: a ready block, in each of three phases. -/
theorem test_witness_ready :
    cmdReady (State.resetWith w32n31) = true ∧ cmdReady (keyed w64n63) = true ∧ cmdReady (used w32n32) = true := by
  decide

/-- `NextBitResult`, `NextByteResult`: a ready block with a key. -/
theorem test_witness_keyed :
    (cmdReady (keyed w32n31) = true ∧ (keyed w32n31).phase ≠ .unloaded) ∧
    (cmdReady (used w64n63) = true ∧ (used w64n63).phase ≠ .unloaded) := by decide

/-- `NextBitsResult`: the smallest and the largest count of each configuration. -/
theorem test_witness_next_bits :
    ((keyed w32n31).phase ≠ .unloaded ∧ cmdReady (keyed w32n31) = true ∧ 1 ≤ 1 ∧ 1 ≤ nmax w32n31) ∧
    (1 ≤ 31 ∧ 31 ≤ nmax w32n31) ∧ (1 ≤ 32 ∧ 32 ≤ nmax w32n32) ∧ (1 ≤ 63 ∧ 63 ≤ nmax w64n63) ∧
    (1 ≤ 64 ∧ 64 ≤ nmax w64n64) := by decide

/-- `NextBytesResult`, `ExtractionIdentities`: the smallest and the largest count of each configuration. -/
theorem test_witness_next_bytes :
    ((keyed w32n31).phase ≠ .unloaded ∧ cmdReady (keyed w32n31) = true ∧ 1 ≤ 1 ∧ 8 * 1 ≤ nmax w32n31) ∧
    (1 ≤ 3 ∧ 8 * 3 ≤ nmax w32n31) ∧ (1 ≤ 4 ∧ 8 * 4 ≤ nmax w32n32) ∧ (1 ≤ 7 ∧ 8 * 7 ≤ nmax w64n63) ∧
    (1 ≤ 8 ∧ 8 * 8 ≤ nmax w64n64) := by decide

/-- `NextBytesSplitResult`. -/
theorem test_witness_split :
    (cmdReady (keyed w32n31) = true ∧ (keyed w32n31).phase ≠ .unloaded ∧ (keyed w32n31).cfg.cap = .wMinusOne) ∧
    (cmdReady (used w64n63) = true ∧ (used w64n63).phase ≠ .unloaded ∧ (used w64n63).cfg.cap = .wMinusOne) := by decide

/-- `ResultBytesAreConsecutiveBytes`. -/
theorem test_witness_result_bytes : (0 < 1 ∧ 1 ≤ 8) ∧ (7 < 8 ∧ 8 ≤ 8) := by decide

/-- `ResultsConcatenateToTheKeystream`: a NOP, a rejected command and an extraction before a last extraction. -/
theorem test_witness_concatenation :
    let a : Arch := { sreg := initState 0 0, phase := .warmedUp, ksData := 0, errCode := none }
    let is : List Instr := [.nop 0, .reserved110 0, .nextBits 3]
    (∀ n, Instr.load n ∉ is) ∧ a.sreg = initState 0 0 ∧ a.phase ≠ .unloaded ∧ isExtraction (.nextByte 0) = true ∧
    cause w64n63 .running (.nextByte 0) = none ∧ 7 < resultBits (.nextByte 0) := by
  refine ⟨?_, rfl, by decide +kernel, rfl, rfl, by decide +kernel⟩
  intro n
  simp

/-- `WidthChangesNoKeystreamBit`. -/
theorem test_witness_width :
    ((keyed w32n31).sreg = (used w64n64).sreg ∧ cmdReady (keyed w32n31) = true ∧ cmdReady (used w64n64) = true ∧
      (keyed w32n31).phase ≠ .unloaded ∧ (used w64n64).phase ≠ .unloaded ∧ 1 ≤ 31 ∧ 31 ≤ nmax (keyed w32n31).cfg ∧
      31 ≤ nmax (used w64n64).cfg) ∧
    (∃ t, exec (.nextBits 31) (keyed w32n31) = .next t ∧ t.rej == false) ∧
    (∃ t, exec (.nextBits 31) (used w64n64) = .next t ∧ t.rej == false) ∧
    (cause w32n31 .running (.nextBytes 4) = none ∧ cause w64n63 .running (.nextBytes 4) = none) :=
  ⟨by decide +kernel, exists_next (by decide +kernel), exists_next (by decide +kernel), by decide +kernel⟩

/-- `RejectionEffect`: the three causes, and an extraction after a rejection. -/
theorem test_witness_rejection :
    (cmdReady (used w64n63) = true ∧ cause w64n63 (used w64n63).phase (.reserved110 5) = some .illegalOp) ∧
    (cmdReady (State.resetWith w64n63) = true ∧
      cause w64n63 (State.resetWith w64n63).phase (.nextBits 0) = some .notReady) ∧
    (cmdReady (used w64n63) = true ∧ cause w64n63 (used w64n63).phase (.nextBits 64) = some .badN) ∧
    (isExtraction (.nextByte 0) = true ∧ cause w64n63 (used w64n63).phase (.nextByte 0) = none ∧
      ∃ u, exec (.nextByte 0) (used w64n63) = .next u ∧ u.ksValid = true) :=
  ⟨by decide, by decide, by decide, rfl, rfl, exists_next (by decide +kernel)⟩

/-- `RejectionCausesAndPriority`: each branch, at the ends of the legal counts. -/
theorem test_witness_priority :
    (cmdReady (State.resetWith w64n63) = true ∧ cmdOp 0x3FE = 6 ∧ cmdOp 0x007 = 7) ∧
    (cmdOp 0x004 = 4 ∧ (State.resetWith w64n63).phase = .unloaded) ∧
    (cmdReady (used w64n63) = true ∧ (used w64n63).phase ≠ .unloaded ∧
      (cmdOp 0x204 = 4 ∧ ¬ (1 ≤ cmdCount 0x204 ∧ cmdCount 0x204 ≤ nmax w64n63)) ∧
      (cmdOp 0x04D = 5 ∧ ¬ (1 ≤ cmdCount 0x04D ∧ cmdCount 0x04D ≤ wordBits w64n63 / 8)) ∧
      (cmdOp 0x1FC = 4 ∧ 1 ≤ cmdCount 0x1FC ∧ cmdCount 0x1FC ≤ nmax w64n63) ∧
      (cmdOp 0x045 = 5 ∧ 1 ≤ cmdCount 0x045 ∧ cmdCount 0x045 ≤ wordBits w64n63 / 8)) ∧
    (∃ t, exec (decode 0x1FC) (used w64n63) = .next t ∧ t.rej == false) ∧
    (let s : State := { used w64n63 with ports := { (offerWord (used w64n63) 0x006).ports with rst := some true } };
      s.ports.rst = some true ∧ s.ports.cmdValid = some true ∧ s.ports.cmd = some 0x006 ∧
      ∃ t, step s = .next t ∧ t.rej == false) :=
  ⟨by decide, by decide, by decide, exists_next (by decide +kernel), rfl, rfl, rfl, exists_next (by decide +kernel)⟩

/-- `FirstErrorIsSticky`: an edge that keeps the code, a reset edge, an edge that records one, and a second
rejection. -/
theorem test_witness_sticky :
    (let s := offerWord { used w64n63 with errCode := some .badN } 0x003;
      s.errCode = some .badN ∧ s.ports.rst ≠ some true ∧ ∃ t, step s = .next t ∧ t.ksValid = true) ∧
    (let s : State := { used w64n63 with errCode := some .badN, ports := { Inputs.idle with rst := some true } };
      s.ports.rst = some true ∧ ∃ t, step s = .next t ∧ t.errCode == none) ∧
    (let s := offerWord (used w64n63) 0x004;
      s.errCode = none ∧ ∃ t, step s = .next t ∧ t.errCode == some .badN) ∧
    (let s : State := { used w64n63 with errCode := some .badN };
      cmdReady s = true ∧ s.errCode = some .badN ∧ cause s.cfg s.phase (.reserved111 0) = some .illegalOp) :=
  ⟨⟨rfl, by decide, exists_next (by decide +kernel)⟩, ⟨rfl, exists_next (by decide +kernel)⟩,
    ⟨rfl, exists_next (by decide +kernel)⟩, by decide⟩

/-- `CommandFrame`: a rejected command, a NOP, a LOAD, an extraction of one edge and the first edge of two. -/
theorem test_witness_frame :
    (cmdReady (used w64n63) = true ∧ cause w64n63 (used w64n63).phase (.nextBits 0) ≠ none ∧
      ∃ t, exec (.nextBits 0) (used w64n63) = .next t ∧ t.rej = true) ∧
    (∃ t, exec (.nop 3) (used w64n63) = .next t ∧ t.rej == false) ∧
    (∃ t, exec (.load 3) (offerWord (used w64n63) 0x019) = .next t ∧ t.phase == .warmup) ∧
    (isExtraction (.nextBits 63) = true ∧ cause w64n63 (used w64n63).phase (.nextBits 63) = none ∧
      resultBits (.nextBits 63) ≤ nmax w64n63 ∧
      ∃ t, exec (.nextBits 63) (used w64n63) = .next t ∧ t.ksValid = true) ∧
    (isExtraction (.nextBytes 8) = true ∧ cause w64n63 (used w64n63).phase (.nextBytes 8) = none ∧
      nmax w64n63 < resultBits (.nextBytes 8) ∧
      ∃ t, exec (.nextBytes 8) (used w64n63) = .next t ∧ t.pend == 1) :=
  ⟨⟨rfl, by decide, exists_next (by decide +kernel)⟩, exists_next (by decide +kernel), exists_next (by decide +kernel),
    ⟨rfl, by decide, by decide, exists_next (by decide +kernel)⟩,
    ⟨rfl, by decide, by decide, exists_next (by decide +kernel)⟩⟩

/-- `ResultHeldUntilTheNext`: `ks_data` changed by an extraction, and by a reset. -/
theorem test_witness_result_changes :
    (∃ t, step (offerWord (keyed w64n63) 0x003) = .next t ∧ (t.ksData != (keyed w64n63).ksData) = true) ∧
    (∃ t, step { used w64n63 with ksData := 5, ports := { Inputs.idle with rst := some true } } = .next t ∧
      (t.ksData != 5) = true) := ⟨exists_next (by decide +kernel), exists_next (by decide +kernel)⟩

/-- `StepRunsTheDecodedCommand`: a defined command on the port, and a table word. -/
theorem test_witness_step :
    (let s := offerWord (used w64n63) 0x045;
      s.ports.rst = some false ∧ s.ports.cmdValid = some true ∧ s.ports.cmd = some 0x045) ∧
    decodeTableWord 10 0x3FF = some (.reserved111 127) := by decide

/-- `AcceptanceCondition`: an accepted command, one held off by a busy block, one dropped by a reset, none offered. -/
theorem test_witness_acceptance :
    (let s := offerWord (used w64n63) 0x045;
      s.ports.cmd = some 0x045 ∧ s.ports.rst = some false ∧ s.ports.cmdValid = some true ∧ cmdReady s = true) ∧
    (let s := offerWord (warming w64n63 63) 0x045;
      Inputs.idle.rst = s.ports.rst ∧ Inputs.idle.cmdValid ≠ none ∧ s.ports.cmdValid ≠ none ∧ cmdReady s = false) ∧
    (let p : Inputs := { Inputs.idle with rst := some true };
      let s : State := { used w64n63 with ports := { p with cmdValid := some true } };
      p.rst = s.ports.rst ∧ p.cmdValid ≠ none ∧ s.ports.cmdValid ≠ none ∧ s.ports.rst = some true) ∧
    (let p : Inputs := { Inputs.idle with cmd := some 0x006 };
      let s := used w64n63;
      p.rst = s.ports.rst ∧ p.cmdValid ≠ none ∧ s.ports.cmdValid ≠ none ∧ s.ports.cmdValid = some false ∧
        p.cmdValid = some false) := by decide

/-- `StrobesMarkOneEdge`: an extraction of one edge, the second edge of a split, and a rejection. -/
theorem test_witness_strobes :
    (∃ t, step (offerWord (used w64n63) 0x003) = .next t ∧ t.ksValid = true) ∧
    (∃ t, step { used w64n63 with pend := 1 } = .next t ∧ t.ksValid = true) ∧
    (∃ t, step (offerWord (used w64n63) 0x005) = .next t ∧ t.rej = true) :=
  ⟨exists_next (by decide +kernel), exists_next (by decide +kernel), exists_next (by decide +kernel)⟩

/-- `OutcomesAreToldApart`: a ready block with a defined command, for each of the outcomes. -/
theorem test_witness_outcomes :
    (let s := offerWord (used w64n63) 0x045;
      cmdReady s = true ∧ s.ports.rst = some false ∧ s.ports.cmdValid = some true ∧ s.ports.cmd = some 0x045 ∧
      ∃ t, step s = .next t ∧ (!cmdReady t && t.ports.rst == some false && (nextOf (step t)).isSome) = true) ∧
    (∃ t, step (offerWord (used w64n63) 0x003) = .next t ∧ (outputs t).ksValid = true) ∧
    (∃ t, step (offerWord (used w64n63) 0x006) = .next t ∧ (outputs t).rej = true) ∧
    (∃ t, step (offerWord (used w64n63) 0x000) = .next t ∧ (outputs t).cmdReady = true) ∧
    (∃ t, step (offerWord (used w64n63) 0x001) = .next t ∧ ((outputs t).phase == 0b01#2) = true) :=
  ⟨⟨rfl, rfl, rfl, rfl, exists_next (by decide +kernel)⟩,
    exists_next (p := fun t => (outputs t).ksValid) (by decide +kernel),
    exists_next (p := fun t => (outputs t).rej) (by decide +kernel),
    exists_next (p := fun t => (outputs t).cmdReady) (by decide +kernel),
    exists_next (p := fun t => (outputs t).phase == 0b01#2) (by decide +kernel)⟩

/-- `OnlyUndefinedInputsStop`: states with defined and with undefined inputs. -/
theorem test_witness_inputs :
    DefinedInputs State.reset ∧ DefinedInputs (offerWord (used w64n63) 0x001) ∧
    ¬ DefinedInputs { State.reset with ports := { Inputs.idle with cmdValid := none } } ∧
    ¬ DefinedInputs { State.reset with
      ports := { rst := some false, cmdValid := some true, cmd := some 0x001, keyIn := some 0, ivIn := none } } :=
  ⟨by decide, by decide, by decide, by decide⟩

/-- `ResetFromEveryState`: a reset edge in a warm-up, an edge that stays in UNLOADED and one that leaves no code. -/
theorem test_witness_reset :
    (let s : State := { warming w32n31 7 with ports := { Inputs.idle with rst := some true } };
      s.ports.rst = some true ∧ s.ports.cmdValid ≠ none) ∧
    (State.reset.ports.rst ≠ some true ∧
      ∃ t, step State.reset = .next t ∧ (t.phase == .unloaded && t.errCode == none) = true) :=
  ⟨by decide, by decide, exists_next (by decide +kernel)⟩

/-- `EveryEdgeKeepsTheInvariant`: states of the invariant in every phase, in a split and after a rejection, that have a
next state. -/
theorem test_witness_invariant :
    BlockInv State.reset ∧ BlockInv (warming w64n63 1152) ∧ BlockInv (keyed w32n31) ∧
    BlockInv { used w64n63 with pend := 1, acc := 0x1B05595826BFE0FB } ∧
    BlockInv { used w32n31 with rej := true, errCode := some .badN } ∧
    (∃ t, step (warming w64n63 1152) = .next t ∧ t.rem == 1089) :=
  ⟨by decide +kernel, by decide +kernel, by decide +kernel, by decide +kernel, by decide +kernel,
    exists_next (by decide +kernel)⟩

/-- `PhaseChanges`: the four changes. -/
theorem test_witness_phases :
    (BlockInv { used w64n63 with ports := { Inputs.idle with rst := some true } } ∧
      ∃ t, step { used w64n63 with ports := { Inputs.idle with rst := some true } } = .next t ∧
        (t.phase != .running) = true) ∧
    (BlockInv (offerWord State.reset 0x001) ∧
      ∃ t, step (offerWord State.reset 0x001) = .next t ∧ (t.phase != .unloaded) = true) ∧
    (BlockInv (warming w64n63 63) ∧ ∃ t, step (warming w64n63 63) = .next t ∧ (t.phase != .warmup) = true) ∧
    (BlockInv (offerWord (keyed w64n63) 0x002) ∧
      ∃ t, step (offerWord (keyed w64n63) 0x002) = .next t ∧ (t.phase != .warmedUp) = true) :=
  ⟨⟨by decide +kernel, exists_next (by decide +kernel)⟩, ⟨by decide +kernel, exists_next (by decide +kernel)⟩,
    ⟨by decide +kernel, exists_next (by decide +kernel)⟩, ⟨by decide +kernel, exists_next (by decide +kernel)⟩⟩

/-- `TransactionLevelRefinement`: a run of two edges through a split extraction, and one of 20 edges through a LOAD's
19 busy edges is met in `test_witness_load_run`. -/
theorem test_witness_refinement :
    BlockInv (offerWord (keyed w64n63) 0x045) ∧ cmdReady (offerWord (keyed w64n63) 0x045) = true ∧
    ∃ t, runEdges 2 (offerWord (keyed w64n63) 0x045) = .next t ∧ cmdReady t = true :=
  ⟨by decide, by decide, exists_next (by decide +kernel)⟩

/-- `BusyEndsInBoundedTime`: a warm-up at its start, with a host that keeps offering a command. -/
theorem test_witness_busy :
    let s := { warming w32n31 1152 with
      ports := { Inputs.idle with cmdValid := some true, cmd := some 0x003 },
      feed := List.replicate 40 { Inputs.idle with cmdValid := some true, cmd := some 0x003 } };
    BlockInv s ∧ noReset (warmupCycles s.cfg) s = true := by decide

/-- `UnkeyedStateIsUnobservable`: a run of two edges that accepts a LOAD. -/
theorem test_witness_unkeyed :
    (offerWord State.reset 0x001).phase = .unloaded ∧ cmdReady (offerWord State.reset 0x001) = true ∧
    ∃ t, runEdges 2 (offerWord State.reset 0x001) = .next t ∧ (t.phase != .unloaded) = true :=
  ⟨rfl, rfl, exists_next (by decide +kernel)⟩

end Sys2Proof.Tests
end

section
/-! SUPPORT. A result of at most W bits is the same value in a W-bit register of either width. -/

namespace Sys2Proof.Machine

/-! ### The parameters -/

theorem wordBits_cases (c : Config) : wordBits c = 32 ∨ wordBits c = 64 := by
  unfold wordBits
  cases c.word with
  | w32 => exact .inl rfl
  | w64 => exact .inr rfl

theorem nmax_le_wordBits (c : Config) : nmax c ≤ wordBits c := by
  unfold nmax
  cases c.cap with
  | wMinusOne => exact Nat.sub_le _ _
  | full => exact Nat.le_refl _

/-! ### Values in a W-bit register -/

/-- Loading a W-bit register drops the bits from W up. -/
@[simp] theorem getLsbD_toWord (c : Config) (v : KsWord) (i : Nat) :
    (toWord c v).getLsbD i = (decide (i < wordBits c) && v.getLsbD i) := by
  have hlane : i < wordBits c → i < 64 := by have := wordBits_cases c; omega
  by_cases hi : i < wordBits c <;> simp [toWord, hi, hlane]

/-- A second load of the same register drops nothing more. -/
@[simp] theorem toWord_zextWord (c : Config) {n : Nat} (z : BitVec n) : toWord c (zextWord c z) = zextWord c z := by
  apply BitVec.eq_of_getLsbD_eq
  intro i _
  simp [zextWord]

/-- A result of at most W bits loses none of them. -/
theorem zextWord_of_le {c : Config} {n : Nat} (h : n ≤ wordBits c) (z : BitVec n) :
    zextWord c z = z.setWidth 64 := by
  apply BitVec.eq_of_getLsbD_eq
  intro i _
  by_cases hi : i < wordBits c
  · simp [zextWord, hi]
  · simp [zextWord, hi, BitVec.getLsbD_of_ge z i (by omega)]

/-! ### Extractions, without the width -/

/-- An extraction of one cycle at the edge that accepts it: `ks_data` and s (42_extract.md R161). -/
theorem extract_result_of_le {k : Nat} {m : State} (h : k ≤ nmax m.cfg) :
    (extract k m).ksData = (batch m.sreg k).1.setWidth 64 ∧ (extract k m).sreg = (batch m.sreg k).2 := by
  have hw : k ≤ wordBits m.cfg := h.trans (nmax_le_wordBits m.cfg)
  rw [extract, if_pos h]
  simpa [updateOut] using zextWord_of_le hw (batch m.sreg k).1

theorem cause_nextBits_eq_none_iff {c : Config} {ph : Phase} {n : Nat} :
    cause c ph (.nextBits n) = none ↔ ph ≠ .unloaded ∧ 1 ≤ n ∧ n ≤ nmax c := by
  by_cases hp : ph = .unloaded <;> simp [cause, hp]

theorem cause_nextBytes_eq_none_iff {c : Config} {ph : Phase} {m : Nat} :
    cause c ph (.nextBytes m) = none ↔ ph ≠ .unloaded ∧ 1 ≤ m ∧ m ≤ wordBits c / 8 := by
  by_cases hp : ph = .unloaded <;> simp [cause, hp]

/-- A command that is not rejected asks for at most W bits (42_extract.md R163 to R166). -/
theorem resultBits_le_of_accepted {c : Config} {ph : Phase} {i : Instr} (h : cause c ph i = none) :
    resultBits i ≤ wordBits c := by
  have hw := wordBits_cases c
  cases i with
  | nextBits n =>
    obtain ⟨-, -, hn⟩ := cause_nextBits_eq_none_iff.mp h
    exact hn.trans (nmax_le_wordBits c)
  | nextBytes m =>
    obtain ⟨-, -, hm⟩ := cause_nextBytes_eq_none_iff.mp h
    simp only [resultBits]
    omega
  | nextBit n => simp only [resultBits]; omega
  | nextByte n => simp only [resultBits]; omega
  | nop n => exact Nat.zero_le _
  | load n => exact Nat.zero_le _
  | reserved110 n => exact Nat.zero_le _
  | reserved111 n => exact Nat.zero_le _

theorem transact_of_accepted {c : Config} {i : Instr} {a : Arch} (key iv : Key) (h : cause c a.phase i = none) :
    transact c key iv i a = transactAccepted c key iv i a := by
  rw [transact, h]

/-- An extraction of at most W bits, at the transaction level. -/
theorem transactExtract_of_le {c : Config} {k : Nat} (h : k ≤ wordBits c) (a : Arch) :
    transactExtract c k a =
      { a with sreg := (stepN a.sreg k).2, ksData := (stepN a.sreg k).1.setWidth 64, phase := .running } := by
  rw [transactExtract, zextWord_of_le h]

/-- The parameters enter an accepted command only through the width of its result. -/
theorem transactAccepted_congr {c c' : Config} (key iv : Key) {i : Instr} (a : Arch)
    (h : resultBits i ≤ wordBits c) (h' : resultBits i ≤ wordBits c') :
    transactAccepted c key iv i a = transactAccepted c' key iv i a := by
  have hextract : transactExtract c (resultBits i) a = transactExtract c' (resultBits i) a := by
    rw [transactExtract_of_le h, transactExtract_of_le h']
  cases i with
  | nextBit n => exact hextract
  | nextByte n => exact hextract
  | nextBits n => exact hextract
  | nextBytes m => exact hextract
  | nop n => rfl
  | load n => rfl
  | reserved110 n => rfl
  | reserved111 n => rfl

end Sys2Proof.Machine
end

section
/-! PROOFS. The statements of 00_scope.md. -/

namespace Sys2Proof.Machine

/-- `NEXT_BITS n` where n is legal: `ks_data` and s after its edge, from s and n alone. -/
theorem nextBits_result {n : Nat} {s t : State} (hr : cmdReady s = true) (hp : s.phase ≠ .unloaded) (h1 : 1 ≤ n)
    (hn : n ≤ nmax s.cfg) (h : exec (.nextBits n) s = .next t) :
    t.ksData = (batch s.sreg n).1.setWidth 64 ∧ t.sreg = (batch s.sreg n).2 := by
  have hc : cause s.cfg s.phase (.nextBits n) = none := cause_nextBits_eq_none_iff.mpr ⟨hp, h1, hn⟩
  rw [exec_extraction hr rfl hc] at h
  cases h
  exact extract_result_of_le (m := clearStrobes s) hn

/-- Settles O28: n ≤ NMAX ≤ W, so no configuration on which the command is legal cuts its result, and the rest of the
command does not read the configuration. -/
theorem widthChangesNoKeystreamBit : Obligations.WidthChangesNoKeystreamBit := by
  unfold Obligations.WidthChangesNoKeystreamBit
  constructor
  · intro n s s' t t' hs hr hr' hp hp' h1 hn hn' h h'
    obtain ⟨hdata, hsreg⟩ := nextBits_result hr hp h1 hn h
    obtain ⟨hdata', hsreg'⟩ := nextBits_result hr' hp' h1 hn' h'
    rw [hdata, hdata', hsreg, hsreg', hs]
    exact ⟨rfl, rfl⟩
  · intro c c' key iv i a h h'
    rw [transact_of_accepted key iv h, transact_of_accepted key iv h']
    exact transactAccepted_congr key iv a (resultBits_le_of_accepted h) (resultBits_le_of_accepted h')

end Sys2Proof.Machine
end

section
/-! SUPPORT. Every edge the block can take, once; later proofs go through its cases. -/

namespace Sys2Proof.Machine

/-- The next edge accepts the command word `w` (70_reset_and_hazards.md R245). -/
structure Accepts (s : State) (w : CmdWord) : Prop where
  rst      : s.ports.rst = some false
  ready    : cmdReady s = true
  cmdValid : s.ports.cmdValid = some true
  cmd      : s.ports.cmd = some w

theorem Accepts.phase {s : State} {w : CmdWord} (h : Accepts s w) : s.phase ≠ .warmup :=
  ((cmdReady_iff s).mp h.ready).1

theorem Accepts.pend {s : State} {w : CmdWord} (h : Accepts s w) : s.pend = 0 :=
  ((cmdReady_iff s).mp h.ready).2

/-- The edges of 70_reset_and_hazards.md R246 that lead from `s` to a next state: each with the condition under which
the block takes it. -/
inductive Edge (s : State) : State → Prop where
  | reset (hrst : s.ports.rst = some true) : Edge s (nextInputs (resetEdge s))
  | warmup (hrst : s.ports.rst = some false) (hphase : s.phase = .warmup) :
      Edge s (nextInputs (warmupCycle (clearStrobes s)))
  | splitSecond (hrst : s.ports.rst = some false) (hphase : s.phase ≠ .warmup) (hpend : 0 < s.pend) :
      Edge s (nextInputs (splitSecond (clearStrobes s)))
  | idle (hrst : s.ports.rst = some false) (hready : cmdReady s = true) (hvalid : s.ports.cmdValid = some false) :
      Edge s (nextInputs (clearStrobes s))
  | rejected {w : CmdWord} {c : Cause} (ha : Accepts s w) (hc : cause s.cfg s.phase (decode w) = some c) :
      Edge s (nextInputs (reject c (clearStrobes s)))
  | nop {w : CmdWord} {n : Nat} (ha : Accepts s w) (hi : decode w = .nop n) : Edge s (nextInputs (clearStrobes s))
  | load {w : CmdWord} {n : Nat} {key iv : Key} (ha : Accepts s w) (hi : decode w = .load n)
      (hkey : s.ports.keyIn = some key) (hiv : s.ports.ivIn = some iv) :
      Edge s (nextInputs (loadRegs key iv (clearStrobes s)))
  | extractOne {w : CmdWord} (ha : Accepts s w) (hi : isExtraction (decode w) = true)
      (hc : cause s.cfg s.phase (decode w) = none) (hk : resultBits (decode w) ≤ nmax s.cfg) :
      Edge s (nextInputs (extractOne (resultBits (decode w)) (clearStrobes s)))
  | splitFirst {w : CmdWord} (ha : Accepts s w) (hi : isExtraction (decode w) = true)
      (hc : cause s.cfg s.phase (decode w) = none) (hk : nmax s.cfg < resultBits (decode w)) :
      Edge s (nextInputs (splitFirst (resultBits (decode w)) (clearStrobes s)))

/-- A ready block with nothing to accept is offered nothing: an undefined `cmd` would be refused. -/
theorem cmdValid_of_quiet {s : State} (hs : sample s = .quiet) (hr : cmdReady s = true) :
    s.ports.cmdValid = some false := by
  obtain ⟨p, h⟩ | ⟨-, -, h⟩ | ⟨-, -, h | ⟨-, -, h⟩⟩ | ⟨w, -, -, -, h⟩ := sample_cases s
  · simp [hs] at h
  · simp [hs] at h
  · exact h
  · simp [hr] at h
  · simp [hs] at h

/-- A busy block does its next busy cycle, whatever is offered. -/
theorem edge_of_busy {s : State} (hrst : s.ports.rst = some false) (hr : cmdReady s = false) :
    Edge s (nextInputs (quietEdge s)) := by
  obtain ⟨hp, h⟩ | ⟨hp, hk, h⟩ | ⟨hready, -⟩ := quietEdge_cases s
  · rw [h]; exact .warmup hrst hp
  · rw [h]; exact .splitSecond hrst hp hk
  · simp [hr] at hready

/-- An edge at which a command is offered with `rst` = 0. -/
theorem edge_of_exec {s m : State} {w : CmdWord} (hrst : s.ports.rst = some false)
    (hv : s.ports.cmdValid = some true) (hw : s.ports.cmd = some w) (h : exec (decode w) s = .next m) :
    Edge s (nextInputs m) := by
  obtain ⟨hr, rfl⟩ | ⟨hr, c, hc, rfl⟩ | ⟨hr, ⟨n, hi⟩, rfl⟩ | ⟨hr, ⟨n, hi⟩, key, iv, hkey, hiv, rfl⟩ |
    ⟨hr, hi, hc, rfl⟩ := exec_next h
  · exact edge_of_busy hrst hr
  · exact .rejected ⟨hrst, hr, hv, hw⟩ hc
  · exact .nop ⟨hrst, hr, hv, hw⟩ hi
  · exact .load ⟨hrst, hr, hv, hw⟩ hi hkey hiv
  · obtain ⟨hk, he⟩ | ⟨hk, he⟩ := extract_cases (resultBits (decode w)) (clearStrobes s)
    · rw [he]; exact .extractOne ⟨hrst, hr, hv, hw⟩ hi hc hk
    · rw [he]; exact .splitFirst ⟨hrst, hr, hv, hw⟩ hi hc hk

/-- Every step with a next state is one of the edges. -/
theorem edge_of_step {s t : State} (h : step s = .next t) : Edge s t := by
  obtain ⟨hrst, -, rfl⟩ | ⟨hrst, hs, rfl⟩ | ⟨w, m, hrst, hv, hw, -, he, rfl⟩ := step_next h
  · exact .reset hrst
  · cases hr : cmdReady s with
    | false => exact edge_of_busy hrst hr
    | true => rw [quietEdge_of_ready hr]; exact .idle hrst hr (cmdValid_of_quiet hs hr)
  · exact edge_of_exec hrst hv hw he

/-! ### What the command at an edge is -/

/-- An extraction in UNLOADED is rejected (42_extract.md R160), so one that a ready block accepts comes after the
warm-up. -/
theorem loadedPhase_of_accepted {c : Config} {ph : Phase} {i : Instr} (hph : ph ≠ .warmup)
    (hi : isExtraction i = true) (hc : cause c ph i = none) : ph = .warmedUp ∨ ph = .running := by
  cases ph with
  | unloaded => cases i <;> simp [isExtraction, cause] at hi hc
  | warmup => exact absurd rfl hph
  | warmedUp => exact .inl rfl
  | running => exact .inr rfl

theorem cmdOp_of_decode_load {w : CmdWord} {n : Nat} (h : decode w = .load n) : cmdOp w = 1 := by
  unfold decode at h
  split at h
  case h_2 hop => exact hop
  all_goals cases h

end Sys2Proof.Machine
end

section
/-! SUPPORT. Each operation of an edge keeps the invariant of the block. -/

namespace Sys2Proof.Machine

/-! ### Widths -/

theorem wordBits_pos (c : Config) : 0 < wordBits c := by
  have := wordBits_cases c
  omega

theorem wordBits_le_nmax_succ (c : Config) : wordBits c ≤ nmax c + 1 := by
  unfold nmax
  cases c.cap with
  | wMinusOne => exact Nat.le_add_of_sub_le (Nat.le_refl _)
  | full => exact Nat.le_succ _

/-- An extraction is split only where it asks for W bits and NMAX is W − 1 (70_reset_and_hazards.md R253). -/
theorem resultBits_eq_wordBits_of_split {c : Config} {ph : Phase} {i : Instr} (hc : cause c ph i = none)
    (hk : nmax c < resultBits i) : resultBits i = wordBits c :=
  Nat.le_antisymm (resultBits_le_of_accepted hc) ((wordBits_le_nmax_succ c).trans hk)

theorem toWord_toNat_lt (c : Config) (v : KsWord) : (toWord c v).toNat < 2 ^ wordBits c := by
  rw [toWord, BitVec.toNat_setWidth]
  exact (Nat.mod_le _ _).trans_lt (BitVec.isLt _)

theorem updateOut_toNat_lt (n : Nat) (m : State) : (updateOut n m).toNat < 2 ^ wordBits m.cfg :=
  toWord_toNat_lt _ _

/-- NMAX lanes of keystream are a number of NMAX bits. -/
theorem updateOut_nmax_toNat_lt (m : State) : (updateOut (nmax m.cfg) m).toNat < 2 ^ nmax m.cfg := by
  rw [updateOut, zextWord_of_le (nmax_le_wordBits m.cfg), BitVec.toNat_setWidth]
  exact (Nat.mod_le _ _).trans_lt (BitVec.isLt _)

theorem firstCause_ne_none (old : Option Cause) (c : Cause) : firstCause old c ≠ none := by
  cases old <;> simp [firstCause]

/-! ### What the invariant says of a phase -/

theorem rem_pos_of_warmup {m : State} (h : BlockInv m) (hphase : m.phase = .warmup) : 0 < m.rem := by
  obtain ⟨-, hwarm, -⟩ := h
  exact hwarm.mp hphase

/-- Outside WARMUP no warm-up step remains. -/
theorem rem_eq_zero_of_ne_warmup {m : State} (h : BlockInv m) (hphase : m.phase ≠ .warmup) : m.rem = 0 := by
  obtain ⟨-, hwarm, -⟩ := h
  exact Nat.eq_zero_of_not_pos fun hr => hphase (hwarm.mpr hr)

/-- A split is begun only after a LOAD and its warm-up. -/
theorem loadedPhase_of_pend {m : State} (h : BlockInv m) (hpend : 0 < m.pend) :
    m.phase = .warmedUp ∨ m.phase = .running := by
  obtain ⟨-, -, hsplit, -⟩ := h
  obtain ⟨-, hphase, -⟩ := hsplit hpend
  exact hphase

theorem pend_eq_zero_of_warmup {m : State} (h : BlockInv m) (hphase : m.phase = .warmup) : m.pend = 0 :=
  Nat.eq_zero_of_not_pos fun hpend => by simpa [hphase] using loadedPhase_of_pend h hpend

/-! ### The operations -/

theorem blockInv_nextInputs {m : State} (h : BlockInv m) : BlockInv (nextInputs m) := h

theorem blockInv_resetWith (c : Config) : BlockInv (State.resetWith c) := by
  simp [BlockInv, State.resetWith]

theorem blockInv_resetEdge (m : State) : BlockInv (resetEdge m) := blockInv_resetWith m.cfg

theorem blockInv_clearStrobes {m : State} (h : BlockInv m) : BlockInv (clearStrobes m) := by
  obtain ⟨hrem, hwarm, hsplit, hpad, hks, hacc, hunl, -, -⟩ := h
  refine ⟨hrem, hwarm, fun hp => ?_, hpad, hks, hacc, fun hu => ?_, nofun, nofun⟩
  · obtain ⟨hn, hph, ha, -, -⟩ := hsplit hp
    exact ⟨hn, hph, ha, rfl, rfl⟩
  · obtain ⟨hs, hd, -⟩ := hunl hu
    exact ⟨hs, hd, rfl⟩

/-- In WARMUP there is no split and no result, so a warm-up cycle need only count down. -/
theorem blockInv_warmupCycle {m : State} (h : BlockInv m) (hphase : m.phase = .warmup) :
    BlockInv (warmupCycle m) := by
  have hpend := pend_eq_zero_of_warmup h hphase
  obtain ⟨hrem, -, -, -, hks, hacc, -, hval, hrej⟩ := h
  have hvalid : m.ksValid = false := by simpa [hphase] using hval
  refine ⟨(Nat.sub_le _ _).trans hrem, ?_, ?_, rfl, hks, hacc, ?_, ?_, hrej⟩
  · by_cases hz : m.rem - min m.rem (nmax m.cfg) = 0
    · simp [hz]
    · simp [hz, hphase, Nat.pos_of_ne_zero hz]
  · simp [hpend]
  · by_cases hz : m.rem - min m.rem (nmax m.cfg) = 0
    · simp [hz]
    · simp [hz, hphase]
  · simp [hvalid]

/-- A result comes when no busy cycle remains, and leaves the block ready in RUNNING. -/
theorem blockInv_emit {m : State} (v : KsWord) (hrem : m.rem = 0) (hpend : m.pend = 0) (hpad : m.pad = 0)
    (hacc : m.acc.toNat < 2 ^ wordBits m.cfg) (hrej : m.rej = false) : BlockInv (emit v m) := by
  refine ⟨?_, ?_, ?_, hpad, toWord_toNat_lt _ _, hacc, nofun, fun _ => ⟨rfl, hrej⟩, ?_⟩
  · simp [hrem]
  · simp [hrem]
  · simp [hpend]
  · simp [hrej]

theorem blockInv_splitSecond {m : State} (h : BlockInv m) (hphase : m.phase ≠ .warmup) (hpend : 0 < m.pend) :
    BlockInv (splitSecond m) := by
  have hrem := rem_eq_zero_of_ne_warmup h hphase
  obtain ⟨-, -, hsplit, -, -, hacc, -, -, -⟩ := h
  obtain ⟨-, -, -, -, hrej⟩ := hsplit hpend
  exact blockInv_emit (m := { updateReg m.pend m with pend := 0 }) _ hrem rfl rfl hacc hrej

theorem blockInv_extractOne {m : State} (k : Nat) (h : BlockInv m) (hphase : m.phase ≠ .warmup)
    (hpend : m.pend = 0) (hrej : m.rej = false) : BlockInv (extractOne k m) := by
  have hrem := rem_eq_zero_of_ne_warmup h hphase
  obtain ⟨-, -, -, -, -, hacc, -, -, -⟩ := h
  exact blockInv_emit (m := updateReg k m) _ hrem hpend rfl hacc hrej

/-- The first half of a split leaves the first NMAX bits in `acc` and the other W − NMAX to do. -/
theorem blockInv_splitFirst {m : State} {k : Nat} (h : BlockInv m) (hk : k = wordBits m.cfg)
    (hphase : m.phase = .warmedUp ∨ m.phase = .running) (hvalid : m.ksValid = false) (hrej : m.rej = false) :
    BlockInv (splitFirst k m) := by
  obtain ⟨hrem, hwarm, -, -, hks, -, -, -, -⟩ := h
  have hloaded : m.phase ≠ .unloaded := fun hu => by simp [hu] at hphase
  refine ⟨hrem, hwarm, fun _ => ⟨by simp [hk], hphase, updateOut_nmax_toNat_lt m, hvalid, hrej⟩, rfl, hks,
    updateOut_toNat_lt _ m, fun hu => absurd hu hloaded, ?_, ?_⟩
  · simp [hvalid]
  · simp [hrej]

theorem blockInv_reject {m : State} (c : Cause) (h : BlockInv m) (hpend : m.pend = 0) : BlockInv (reject c m) := by
  obtain ⟨hrem, hwarm, -, hpad, hks, hacc, hunl, -, -⟩ := h
  refine ⟨hrem, hwarm, ?_, hpad, hks, hacc, fun hu => ?_, nofun, fun _ => firstCause_ne_none _ c⟩
  · simp [hpend]
  · obtain ⟨hs, hd, -⟩ := hunl hu
    exact ⟨hs, hd, rfl⟩

theorem blockInv_loadRegs {m : State} (key iv : Key) (h : BlockInv m) (hpend : m.pend = 0)
    (hvalid : m.ksValid = false) : BlockInv (loadRegs key iv m) := by
  obtain ⟨-, -, -, -, hks, hacc, -, -, hrej⟩ := h
  refine ⟨Nat.le_refl _, ?_, ?_, rfl, hks, hacc, nofun, ?_, hrej⟩
  · simp
  · simp [hpend]
  · simp [hvalid]

theorem blockInv_of_edge {s t : State} (h : BlockInv s) (he : Edge s t) : BlockInv t := by
  have hc := blockInv_clearStrobes h
  cases he with
  | reset => exact blockInv_nextInputs (blockInv_resetEdge s)
  | warmup _ hphase => exact blockInv_nextInputs (blockInv_warmupCycle hc hphase)
  | splitSecond _ hphase hpend => exact blockInv_nextInputs (blockInv_splitSecond hc hphase hpend)
  | rejected ha => exact blockInv_nextInputs (blockInv_reject _ hc ha.pend)
  | idle | nop => exact blockInv_nextInputs hc
  | load ha => exact blockInv_nextInputs (blockInv_loadRegs _ _ hc ha.pend rfl)
  | extractOne ha => exact blockInv_nextInputs (blockInv_extractOne _ hc ha.phase ha.pend rfl)
  | splitFirst ha hi hcause hk =>
    exact blockInv_nextInputs (blockInv_splitFirst hc (resultBits_eq_wordBits_of_split hcause hk)
      (loadedPhase_of_accepted ha.phase hi hcause) rfl rfl)

end Sys2Proof.Machine
end

section
/-! SUPPORT. Where the packed words hold a state bit and a pad bit (10_state.md R23 to R25). -/

namespace Sys2Proof.Machine

theorem wordIndex_lt_numWords {w p : Nat} (hw : 0 < w) (hp : p ≤ 288) : wordIndex w p < numWords w := by
  rw [wordIndex, numWords, ← Nat.succ_le_iff, Nat.succ_eq_add_one, ← Nat.add_div_right _ hw]
  exact Nat.div_le_div_right (by omega)

theorem wordOffset_lt {w : Nat} (hw : 0 < w) (p : Nat) : wordOffset w p < w := by
  unfold wordOffset
  omega

/-- Word k(p) and offset o(p) name the position p again. -/
theorem position_of_wordIndex_wordOffset {w p : Nat} (hw : 0 < w) (hp : 1 ≤ p) :
    wordIndex w p * w + (w - wordOffset w p) = p := by
  have hmod : (p - 1) % w < w := Nat.mod_lt _ hw
  have hdiv : (p - 1) / w * w + (p - 1) % w = p - 1 := Nat.div_add_mod' _ _
  unfold wordIndex wordOffset
  omega

/-- The words hold s[p] at offset o(p) of word k(p) (10_state.md R24). -/
theorem getLsbD_pack_stateBit {w p : Nat} (s : SReg) (pad : BitVec 32) (hw : 0 < w) (h : 1 ≤ p) (h' : p ≤ 288) :
    (wordAt (pack w s pad) (wordIndex w p)).getLsbD (wordOffset w p) = sbit s p := by
  simp [wordAt_pack s pad (wordIndex_lt_numWords hw h'), wordOffset_lt hw, position_of_wordIndex_wordOffset hw h, h']

/-- At W = 64 the low half of w[4] holds the pad bits (10_state.md R25). -/
theorem getLsbD_pack_padBit {w o : Nat} (s : SReg) (pad : BitVec 32) (hw : w = 64) (ho : o < 32) :
    (wordAt (pack w s pad) 4).getLsbD o = pad.getLsbD o := by
  have hpos : ¬ 4 * 64 + (64 - o) ≤ 288 := by omega
  have hlane : o < 64 := by omega
  subst hw
  simp [wordAt_pack s pad (show 4 < numWords 64 by decide), hpos, hlane]

theorem unpack_pack {w : Nat} (s : SReg) (pad : BitVec 32) (hw : 0 < w) : unpack (pack w s pad) = s := by
  apply sreg_ext
  intro p h h'
  rw [unpack, sbit_sregOf _ h h', getLsbD_pack_stateBit s pad hw h h']

@[simp] theorem length_pack (w : Nat) (s : SReg) (pad : BitVec 32) : (pack w s pad).length = numWords w := by
  simp [pack]

end Sys2Proof.Machine
end

section
/-! PROOFS. The statements of 10_state.md. -/

namespace Sys2Proof.Machine

/-- Settles O44: the invariant needs no strengthening, each operation of an edge keeps it. -/
theorem everyEdgeKeepsTheInvariant : Obligations.EveryEdgeKeepsTheInvariant := by
  unfold Obligations.EveryEdgeKeepsTheInvariant
  intro s t h hstep
  exact blockInv_of_edge h (edge_of_step hstep)

/-- Settles O43: every register is 0 and the phase is UNLOADED. -/
theorem resetSatisfiesTheInvariant : Obligations.ResetSatisfiesTheInvariant := by
  unfold Obligations.ResetSatisfiesTheInvariant
  exact blockInv_resetWith

/-- Settles O9: k(p) and o(p) are the quotient and the remainder of p − 1 by W, so the words hold each bit once. -/
theorem registerFileHoldsTheState : Obligations.RegisterFileHoldsTheState := by
  unfold Obligations.RegisterFileHoldsTheState
  intro c s pad
  refine ⟨?_, fun p => getLsbD_pack_stateBit s pad (wordBits_pos c), fun hword o => ?_,
    unpack_pack s pad (wordBits_pos c)⟩
  · rw [length_pack, wordBits]
    cases c.word with
    | w32 => rfl
    | w64 => rfl
  · exact getLsbD_pack_padBit s pad (by rw [wordBits, hword])

/-- Settles O34: of the edges only a reset and the two that end in `emit` write `ks_data`. -/
theorem resultHeldUntilTheNext : Obligations.ResultHeldUntilTheNext := by
  unfold Obligations.ResultHeldUntilTheNext
  intro s t hstep hne
  cases edge_of_step hstep with
  | reset hrst => exact .inr hrst
  | splitSecond => exact .inl rfl
  | extractOne => exact .inl rfl
  | warmup | idle | rejected | nop | load | splitFirst => exact absurd rfl hne

/-- Settles O38: at each edge, its condition says whether the right side of an equivalence holds, and its operation
sets the strobe to match. -/
theorem strobesMarkOneEdge : Obligations.StrobesMarkOneEdge := by
  unfold Obligations.StrobesMarkOneEdge
  intro s t hstep
  cases edge_of_step hstep with
  | reset hrst => simp [hrst]
  | warmup hrst hphase => simp [hphase, cmdReady]
  | splitSecond hrst hphase hpend => simp [hrst, hphase, hpend, cmdReady, hpend.ne']
  | idle hrst hready hvalid => simp [hvalid, ((cmdReady_iff s).mp hready).2]
  | rejected ha hc => simp [ha.rst, ha.ready, ha.cmdValid, ha.cmd, ha.pend, hc]
  | nop ha hi => simp [ha.cmd, ha.pend, hi, isExtraction, cause]
  | load ha hi => simp [ha.cmd, ha.pend, hi, isExtraction, cause]
  | extractOne ha hi hc hk => simp [ha.rst, ha.ready, ha.cmdValid, ha.cmd, hi, hc, hk]
  | splitFirst ha hi hc hk => simp [ha.cmd, ha.pend, hc, hk]

/-- Settles O45: the invariant ties WARMUP to 0 < rem and keeps a split out of UNLOADED, so no edge but these four
changes the phase. -/
theorem phaseChanges : Obligations.PhaseChanges := by
  unfold Obligations.PhaseChanges
  intro s t h hstep hne
  cases edge_of_step hstep with
  | reset hrst => exact .inl ⟨hrst, rfl⟩
  | load ha hi =>
    exact .inr (.inl ⟨ha.rst, ha.cmdValid, by simp [ha.cmd, cmdOp_of_decode_load hi], ha.phase, ha.ready, rfl⟩)
  | warmup hrst hphase =>
    have hrem : s.rem - min s.rem (nmax s.cfg) = 0 := of_not_not fun hz => hne (by simp [hz])
    exact .inr (.inr (.inl ⟨hrst, hphase, rem_pos_of_warmup h hphase, hrem, by simp [hrem]⟩))
  | splitSecond hrst _ hpend =>
    exact .inr (.inr (.inr ⟨hrst, (loadedPhase_of_pend h hpend).resolve_right (Ne.symm hne), rfl, rfl⟩))
  | extractOne ha hi hc =>
    have hphase := (loadedPhase_of_accepted ha.phase hi hc).resolve_right (Ne.symm hne)
    exact .inr (.inr (.inr ⟨ha.rst, hphase, rfl, rfl⟩))
  | idle | rejected | nop | splitFirst => exact absurd rfl hne

end Sys2Proof.Machine
end

section
/-! SUPPORT. Where a byte of the key or the IV stands on its port and in a loaded state (20_memory.md R52 to R54). -/

namespace Sys2Proof.Machine

/-- Bit b of byte j is bit 8j + b of the port (20_memory.md R54). -/
theorem getLsbD_portOfBytes (bs : List Byte) {j b : Nat} (hj : j < 10) (hb : b < 8) :
    (portOfBytes bs).getLsbD (8 * j + b) = (bs.getD j 0).getLsbD b := by
  have hbit : 8 * j + b < 80 := by omega
  have hdiv : (8 * j + b) / 8 = j := by omega
  have hmod : (8 * j + b) % 8 = b := by omega
  rw [portOfBytes, getLsbD_bitsOf, hdiv, hmod, decide_eq_true hbit, Bool.true_and]

theorem extractLsb'_portOfBytes (bs : List Byte) {j : Nat} (hj : j < 10) :
    (portOfBytes bs).extractLsb' (8 * j) 8 = bs.getD j 0 := by
  apply BitVec.eq_of_getLsbD_eq
  intro b hb
  rw [BitVec.getLsbD_extractLsb', decide_eq_true hb, Bool.true_and, getLsbD_portOfBytes bs hj hb]

/-- Key bit i goes to s[i+1] (20_memory.md R54). -/
theorem sbit_load_key (key iv : Key) {i : Nat} (h : i < 80) : sbit (load key iv) (i + 1) = key.getLsbD i := by
  rw [sbit_load key iv (by omega) (by omega), loadBit, if_pos (by omega), Nat.add_sub_cancel]

/-- IV bit i goes to s[94+i] (20_memory.md R54). -/
theorem sbit_load_iv (key iv : Key) {i : Nat} (h : i < 80) : sbit (load key iv) (94 + i) = iv.getLsbD i := by
  rw [sbit_load key iv (by omega) (by omega), loadBit, if_neg (by omega), if_neg (by omega), if_pos (by omega),
    Nat.add_sub_cancel_left]

end Sys2Proof.Machine
end

section
/-! SUPPORT. Steps in sequence: a run of a steps and a run of b steps are one run (40_datapath.md R106). -/

namespace Sys2Proof.Machine

theorem stepN_add_state (s : SReg) (a b : Nat) : (stepN s (a + b)).2 = (stepN (stepN s a).2 b).2 := by
  induction b with
  | zero => rfl
  | succ b ih => rw [← Nat.add_assoc, stepN_succ_state, stepN_succ_state, ih]

/-- Lane a + i of a run is lane i of the run that begins after its first a steps. -/
theorem getLsbD_stepN_add (s : SReg) {n a b i : Nat} (hi : i < b) (hn : a + b ≤ n) :
    (stepN s n).1.getLsbD (a + i) = (stepN (stepN s a).2 b).1.getLsbD i := by
  rw [getLsbD_stepN, getLsbD_stepN, stepN_add_state, decide_eq_true hi, decide_eq_true (by omega)]

end Sys2Proof.Machine
end

section
/-! PROOFS. The statements of 20_memory.md. -/

namespace Sys2Proof.Machine

/-- Settles O12: the bytes of a port are its bits eight at a time, and LOAD moves the 80 bits of each port together. -/
theorem loadPlacesKeyAndIvBytes : Obligations.LoadPlacesKeyAndIvBytes := by
  unfold Obligations.LoadPlacesKeyAndIvBytes
  refine ⟨fun key iv j b _ _ hj hb => ?_, fun key iv i hi => ⟨sbit_load_key key iv hi, sbit_load_iv key iv hi⟩,
    by decide +kernel, by decide +kernel⟩
  have hbit : 8 * j + b < 80 := by omega
  refine ⟨extractLsb'_portOfBytes key hj, extractLsb'_portOfBytes iv hj, ?_, ?_⟩
  · rw [sbit_load_key _ _ hbit, getLsbD_portOfBytes key hj hb]
  · rw [Nat.add_assoc, sbit_load_iv _ _ hbit, getLsbD_portOfBytes iv hj hb]

/-- Settles O25: byte i of the result is its lanes from 8i on, which are the lanes of the run after the first 8i steps;
8m ≤ 64, so the register holds them all. -/
theorem resultBytesAreConsecutiveBytes : Obligations.ResultBytesAreConsecutiveBytes := by
  unfold Obligations.ResultBytesAreConsecutiveBytes
  intro s m i hi hm
  apply BitVec.eq_of_getLsbD_eq
  intro b hb
  have hlane : 8 * i + b < 64 := by omega
  rw [resultByte, BitVec.getLsbD_extractLsb', BitVec.getLsbD_setWidth, decide_eq_true hb, decide_eq_true hlane,
    Bool.true_and, Bool.true_and]
  exact getLsbD_stepN_add s hb (by omega)

end Sys2Proof.Machine
end

section
/-! SUPPORT. A command word is its two fields: decoder and encoder on OP and N (30_encoding.md R71, R77, R79). -/

namespace Sys2Proof

theorem cmdOp_eq_mod (w : CmdWord) : cmdOp w = w.toNat % 8 := by
  rw [cmdOp, BitVec.extractLsb'_toNat, Nat.shiftRight_zero]

theorem cmdCount_eq_div (w : CmdWord) : cmdCount w = w.toNat / 8 := by
  rw [cmdCount, BitVec.extractLsb'_toNat, Nat.shiftRight_eq_div_pow]
  exact Nat.mod_eq_of_lt (by omega)

theorem cmdOp_lt (w : CmdWord) : cmdOp w < 8 := BitVec.isLt _

theorem cmdCount_lt (w : CmdWord) : cmdCount w < 128 := BitVec.isLt _

/-- Two words with the same OP and the same N are one. -/
theorem cmdWord_ext {v w : CmdWord} (hop : cmdOp v = cmdOp w) (hcount : cmdCount v = cmdCount w) : v = w := by
  rw [cmdOp_eq_mod, cmdOp_eq_mod] at hop
  rw [cmdCount_eq_div, cmdCount_eq_div] at hcount
  apply BitVec.eq_of_toNat_eq
  omega

/-- OP is the number of the word mod 8, for a number of any length, whose low 10 bits are the word. -/
theorem cmdOp_ofNat (w : Nat) : cmdOp (BitVec.ofNat 10 w) = w % 8 := by
  rw [cmdOp_eq_mod, BitVec.toNat_ofNat]
  omega

/-- Of every eight successive words one has a given OP. -/
theorem length_filter_cmdOp {op : Nat} (hop : op < 8) :
    ((List.range 1024).filter fun w => cmdOp (BitVec.ofNat 10 w) == op).length = 128 := by
  calc ((List.range 1024).filter fun w => cmdOp (BitVec.ofNat 10 w) == op).length
      = Nat.count (· ≡ op [MOD 8]) 1024 := by
        simp [Nat.count, List.countP_eq_length_filter, cmdOp_ofNat, Nat.ModEq, Nat.mod_eq_of_lt hop,
          Bool.beq_eq_decide_eq]
    _ = 128 := by simp [Nat.count_modEq_card 1024 (show 0 < 8 by decide) op]

/-! ### The decoder keeps both fields -/

@[simp] theorem count_decode (w : CmdWord) : (decode w).count = cmdCount w := by
  unfold decode
  split <;> rfl

theorem toNat_opcode_decode (w : CmdWord) : (opcode (decode w)).toNat = cmdOp w := by
  have hlt := cmdOp_lt w
  unfold decode
  generalize cmdOp w = op at hlt ⊢
  interval_cases op <;> rfl

theorem decode_wellFormed (w : CmdWord) : (decode w).WellFormed := by
  rw [Instr.WellFormed, count_decode]
  exact cmdCount_lt w

/-! ### Round trips -/

theorem decode_encode {i : Instr} (h : i.WellFormed) : decode (encode i) = i := by
  obtain ⟨hop, hcount⟩ := Laws.EncodedFields.of_any i h
  rw [decode, hop, hcount]
  cases i <;> rfl

theorem encode_decode (w : CmdWord) : encode (decode w) = w := by
  obtain ⟨hop, hcount⟩ := Laws.EncodedFields.of_any (decode w) (decode_wellFormed w)
  exact cmdWord_ext (hop.trans (toNat_opcode_decode w)) (hcount.trans (count_decode w))

end Sys2Proof
end

section
/-! SUPPORT. Commands and words with the same outcome at every edge (30_encoding.md R75, R80). -/

namespace Sys2Proof.Machine

/-! ### Words -/

/-- Outside NEXT_BITS and NEXT_BYTES the arms of `exec` do not read N (30_encoding.md R75). -/
theorem exec_decode_of_cmdOp_eq {v w : CmdWord} (h : cmdOp v = cmdOp w) (hbits : cmdOp w ≠ 4) (hbytes : cmdOp w ≠ 5)
    (s : State) : exec (decode v) s = exec (decode w) s := by
  rw [decode, decode, h]
  split
  case h_5 hop => exact absurd hop hbits
  case h_6 hop => exact absurd hop hbytes
  all_goals rfl

/-- Two words that do the same when offered do the same on the port, at every edge and with any other inputs. -/
theorem step_cmd_congr {v w : CmdWord} (h : ∀ m, exec (decode v) m = exec (decode w) m) (s : State) (p : Inputs) :
    step { s with ports := { p with cmd := some v } } = step { s with ports := { p with cmd := some w } } := by
  obtain ⟨rst, cmdValid, cmd, key, iv⟩ := p
  match rst, cmdValid with
  | none, _ => rfl
  | some false, none => rfl
  | some true, none => rfl
  | some true, some _ => rfl
  | some false, some false =>
    have hquiet := (nextInputs_quietEdge_ports s ⟨some false, some false, some v, key, iv⟩).trans
      (nextInputs_quietEdge_ports s ⟨some false, some false, some w, key, iv⟩).symm
    exact congrArg Host.Outcome.next hquiet
  | some false, some true =>
    have hports := settle_exec_ports (decode v) { s with ports := ⟨some false, some true, some w, key, iv⟩ }
      ⟨some false, some true, some v, key, iv⟩ rfl rfl
    exact hports.trans (congrArg settle (h _))

/-! ### Extractions -/

/-- An extraction is its number of bits and its cause of rejection: all else is common to the four. -/
theorem exec_extraction_congr {i j : Instr} {s : State} (hi : isExtraction i = true) (hj : isExtraction j = true)
    (hbits : resultBits i = resultBits j) (hcause : cause s.cfg s.phase i = cause s.cfg s.phase j) :
    exec i s = exec j s := by
  cases hr : cmdReady s with
  | false => rw [exec_busy i hr, exec_busy j hr]
  | true =>
    cases hc : cause s.cfg s.phase j with
    | some c => rw [exec_rejected hr (hcause.trans hc), exec_rejected hr hc]
    | none => rw [exec_extraction hr hi (hcause.trans hc), exec_extraction hr hj hc, hbits]

theorem thirtyOne_le_nmax (c : Config) : 31 ≤ nmax c := by
  have hw := wordBits_cases c
  have hle := wordBits_le_nmax_succ c
  omega

/-- With a legal count only UNLOADED is left as a cause, as for NEXT_BIT and NEXT_BYTE. -/
theorem cause_nextBits_of_inRange {c : Config} (ph : Phase) {n : Nat} (h1 : 1 ≤ n) (hn : n ≤ nmax c) :
    cause c ph (.nextBits n) = if ph = .unloaded then some .notReady else none := by
  simp [cause, h1, hn]

/-- m bytes are legal exactly when 8m bits are, as long as one cycle does them (0 is legal for neither). -/
theorem cause_nextBytes_eq_nextBits {c : Config} (ph : Phase) {m : Nat} (h : 8 * m ≤ nmax c) :
    cause c ph (.nextBytes m) = cause c ph (.nextBits (8 * m)) := by
  have hw := nmax_le_wordBits c
  have hrange : (1 ≤ m ∧ m ≤ wordBits c / 8) ↔ (1 ≤ 8 * m ∧ 8 * m ≤ nmax c) := by omega
  simp only [cause, hrange]

theorem exec_nextBit_eq_nextBits (n : Nat) (s : State) : exec (.nextBit n) s = exec (.nextBits 1) s := by
  have hmax := thirtyOne_le_nmax s.cfg
  exact exec_extraction_congr rfl rfl rfl (cause_nextBits_of_inRange s.phase (by omega) (by omega)).symm

theorem exec_nextByte_eq_nextBits (n : Nat) (s : State) : exec (.nextByte n) s = exec (.nextBits 8) s := by
  have hmax := thirtyOne_le_nmax s.cfg
  exact exec_extraction_congr rfl rfl rfl (cause_nextBits_of_inRange s.phase (by omega) (by omega)).symm

theorem exec_nextBytes_eq_nextBits {m : Nat} {s : State} (h : 8 * m ≤ nmax s.cfg) :
    exec (.nextBytes m) s = exec (.nextBits (8 * m)) s :=
  exec_extraction_congr rfl rfl rfl (cause_nextBytes_eq_nextBits s.phase h)

theorem exec_nextByte_eq_nextBytes (n : Nat) (s : State) : exec (.nextByte n) s = exec (.nextBytes 1) s := by
  have hmax := thirtyOne_le_nmax s.cfg
  exact (exec_nextByte_eq_nextBits n s).trans (exec_nextBytes_eq_nextBits (m := 1) (by omega)).symm

/-! ### Rejections -/

theorem firstCause_eq_getD (old : Option Cause) (c : Cause) : firstCause old c = some (old.getD c) := by
  cases old <;> rfl

/-- A rejection at the edge that accepts the command, written out (60_exceptions.md R203). -/
theorem reject_clearStrobes (c : Cause) (m : State) :
    reject c (clearStrobes m) = { m with ksValid := false, rej := true, errCode := some (m.errCode.getD c) } := by
  simp only [reject, clearStrobes, firstCause_eq_getD]

end Sys2Proof.Machine
end

section
/-! PROOFS. The statements of 30_encoding.md. -/

namespace Sys2Proof.Machine

/-- Settles O1: the decoder and the encoder keep OP and N, and the two fields are the whole word. -/
theorem decodeAndEncodeAreInverse : Obligations.DecodeAndEncodeAreInverse := by
  unfold Obligations.DecodeAndEncodeAreInverse
  exact ⟨fun _ h => decode_encode h, fun w => ⟨decode_wellFormed w, encode_decode w⟩⟩

/-- Settles O3: the arms of these commands do not read N, and an edge that accepts no command does not read `cmd`. -/
theorem ignoredCountChangesNothing : Obligations.IgnoredCountChangesNothing := by
  unfold Obligations.IgnoredCountChangesNothing
  exact ⟨fun s p _ _ hop hbits hbytes => step_cmd_congr (exec_decode_of_cmdOp_eq hop hbits hbytes) s p,
    fun _ hop => length_filter_cmdOp hop⟩

/-- Settles O26: the two sides of each identity ask for the same number of bits and are rejected for the same causes. -/
theorem extractionIdentities : Obligations.ExtractionIdentities := by
  unfold Obligations.ExtractionIdentities
  refine ⟨fun n s => ⟨exec_nextBit_eq_nextBits n s, exec_nextByte_eq_nextBits n s, exec_nextByte_eq_nextBytes n s,
    fun _ hm => exec_nextBytes_eq_nextBits hm⟩, fun m => ⟨?_, ?_⟩⟩
  · simp only [nmax, wordBits]
    omega
  · simp only [nmax, wordBits]
    omega

/-- Settles O2: the listed words are fixed, so the decoder and the assembler are run on them. -/
theorem commonCommandWords : Obligations.CommonCommandWords := by
  unfold Obligations.CommonCommandWords
  decide

/-- Settles O31: the cause of a reserved OP is ILLEGAL_OP in every phase, and a rejection changes no more than this. -/
theorem reservedOpcodesRejected : Obligations.ReservedOpcodesRejected := by
  unfold Obligations.ReservedOpcodesRejected
  intro n s h
  rw [← reject_clearStrobes]
  exact ⟨exec_rejected h rfl, exec_rejected h rfl⟩

end Sys2Proof.Machine
end

section
/-! SUPPORT. Within its segment a bit moves up one position a step, so a slice lane is the bit its step reads and the
batch is its single steps (40_datapath.md R103, R111, R115). -/

namespace Sys2Proof.Machine

/-- The first position of p's segment (40_datapath.md R111). -/
def segmentStart (p : Nat) : Nat := if p ≤ 93 then 1 else if p ≤ 177 then 94 else 178

/-! ### A bit within its segment -/

/-- Past the first position of its segment a step only shifts (40_datapath.md R103). -/
theorem sbit_step1_of_segmentStart_lt (s : SReg) {p : Nat} (h : segmentStart p < p) (h' : p ≤ 288) :
    sbit (step1 s).2 p = sbit s (p - 1) := by
  have hne : p ≠ 1 ∧ p ≠ 94 ∧ p ≠ 178 := by refine ⟨?_, ?_, ?_⟩ <;> rintro rfl <;> simp [segmentStart] at h
  obtain ⟨h1, h94, h178⟩ := hne
  rw [sbit_step1 s (by omega) h', if_neg h1, if_neg h94, if_neg h178]

theorem segmentStart_pred {p : Nat} (h : segmentStart p < p) : segmentStart (p - 1) = segmentStart p := by
  unfold segmentStart at *
  split_ifs at * <;> omega

/-- s_i[p] = s[p − i] as long as p − i is in p's segment (40_datapath.md R111). -/
theorem sbit_stepN_of_segmentStart_le (s : SReg) {p i : Nat} (h : segmentStart p + i ≤ p) (h' : p ≤ 288) :
    sbit (stepN s i).2 p = sbit s (p - i) := by
  induction i generalizing p with
  | zero => rfl
  | succ i ih =>
    have hlt : segmentStart p < p := by omega
    have hpred := segmentStart_pred hlt
    rw [stepN_succ_state, sbit_step1_of_segmentStart_lt _ hlt h', ih (by omega) (by omega), Nat.sub_sub,
      Nat.add_comm 1 i]

/-- After n steps the bit that step i put at the first position of a segment is n − 1 − i past it. -/
theorem sbit_stepN_injected (s : SReg) {a q n i : Nat} (hstart : segmentStart q = a) (hq : a ≤ q) (h' : q ≤ 288)
    (hi : q + i + 1 = a + n) : sbit (stepN s n).2 q = sbit (step1 (stepN s i).2).2 a := by
  have hn : n = i + 1 + (q - a) := by omega
  rw [stepN_state_congr s hn, stepN_add_state, sbit_stepN_of_segmentStart_le _ (by omega) h', stepN_succ_state,
    Nat.sub_sub_self hq]

/-! ### The combiner -/

/-- The positions the feedback and output functions read (40_datapath.md R100). -/
def taps : List Nat := [66, 69, 91, 92, 93, 162, 171, 175, 176, 177, 243, 264, 286, 287, 288]

/-- The combiner reads the slices at the taps only. -/
theorem combine_congr {n : Nat} {sl sl' : Nat → BitVec n} (h : ∀ p ∈ taps, sl p = sl' p) :
    combine sl = combine sl' := by
  simp only [taps, List.forall_mem_cons] at h
  simp [combine, h]

/-- A lane of the combiner is one step: its outputs are the emitted bit and the three injected bits of the step from a
state whose taps hold that lane of the slices. -/
theorem getLsbD_combine {n i : Nat} {sl : Nat → BitVec n} {t : SReg}
    (h : ∀ p ∈ taps, (sl p).getLsbD i = sbit t p) :
    (combine sl).z.getLsbD i = (step1 t).1 ∧ (combine sl).t1.getLsbD i = sbit (step1 t).2 94 ∧
    (combine sl).t2.getLsbD i = sbit (step1 t).2 178 ∧ (combine sl).t3.getLsbD i = sbit (step1 t).2 1 := by
  simp only [taps, List.forall_mem_cons] at h
  rw [sbit_step1 t (by decide) (by decide), sbit_step1 t (by decide) (by decide), sbit_step1 t (by decide) (by decide)]
  simp [combine, step1, h]

/-! ### The batch -/

/-- Every tap is at least 65 past the first position of its segment; 66 and 243 are no more. -/
theorem segmentStart_of_mem_taps : ∀ p ∈ taps, segmentStart p + 65 ≤ p ∧ p ≤ 288 := by decide

/-- Up to 66 lanes, those of a slice at a tap are what the steps of the batch read there (40_datapath.md R115). -/
theorem getLsbD_slice_tap (s : SReg) {n i : Nat} (hi : i < n) (hn : n ≤ 66) :
    ∀ p ∈ taps, (slice s p n).getLsbD i = sbit (stepN s i).2 p := by
  intro p hp
  obtain ⟨hstart, hmax⟩ := segmentStart_of_mem_taps p hp
  rw [getLsbD_slice, decide_eq_true hi, Bool.true_and, sbit_stepN_of_segmentStart_le s (by omega) hmax]

theorem batch_bits (s : SReg) {n : Nat} (hn : n ≤ 66) : (batch s n).1 = (stepN s n).1 := by
  apply BitVec.eq_of_getLsbD_eq
  intro i hi
  obtain ⟨hz, -⟩ := getLsbD_combine (getLsbD_slice_tap s hi hn)
  rw [getLsbD_stepN, decide_eq_true hi, Bool.true_and]
  exact hz

/-- Each of the first n positions of a segment holds an injected bit, and every other bit has only moved. -/
theorem batch_state (s : SReg) {n : Nat} (hn : n ≤ 66) : (batch s n).2 = (stepN s n).2 := by
  apply sreg_ext
  intro q h h'
  rw [sbit_batch s n h h']
  split_ifs with h3 h1 h2
  · have hstart : segmentStart q = 1 := if_pos (by omega)
    obtain ⟨-, -, -, ht3⟩ := getLsbD_combine (getLsbD_slice_tap s (i := n - q) (by omega) hn)
    exact ht3.trans (sbit_stepN_injected s hstart (by omega) h' (by omega)).symm
  · have hstart : segmentStart q = 94 := by rw [segmentStart, if_neg (by omega), if_pos (by omega)]
    obtain ⟨-, ht1, -⟩ := getLsbD_combine (getLsbD_slice_tap s (i := 93 + n - q) (by omega) hn)
    exact ht1.trans (sbit_stepN_injected s hstart (by omega) h' (by omega)).symm
  · have hstart : segmentStart q = 178 := by rw [segmentStart, if_neg (by omega), if_neg (by omega)]
    obtain ⟨-, -, ht2, -⟩ := getLsbD_combine (getLsbD_slice_tap s (i := 177 + n - q) (by omega) hn)
    exact ht2.trans (sbit_stepN_injected s hstart (by omega) h' (by omega)).symm
  · have hstart : segmentStart q + n ≤ q := by unfold segmentStart; split_ifs <;> omega
    rw [sbit_stepN_of_segmentStart_le s hstart h']

theorem batch_eq_stepN (s : SReg) {n : Nat} (hn : n ≤ 66) : batch s n = stepN s n :=
  Prod.ext (batch_bits s hn) (batch_state s hn)

/-! ### States whose bits are all the same -/

theorem sbit_allOnes {p : Nat} (h : 1 ≤ p) (h' : p ≤ 288) : sbit (BitVec.allOnes 288) p = true := by
  rw [sbit, BitVec.getLsbD_allOnes, decide_eq_true h, decide_eq_true (by omega), Bool.true_and]

/-- If all bits are the same, six of them cancel in the emitted bit and four terms in each feedback value. -/
theorem step1_of_constant {s : SReg} {b : Bool} (h : ∀ p, 1 ≤ p → p ≤ 288 → sbit s p = b) :
    (step1 s).1 = false ∧
    ∀ q, 1 ≤ q → q ≤ 288 →
      sbit (step1 s).2 q = (!(decide (q = 1) || decide (q = 94) || decide (q = 178)) && b) := by
  refine ⟨by simp [step1, h], fun q hq hq' => ?_⟩
  rw [sbit_step1 s hq hq']
  split_ifs with h1 h94 h178
  · simp [h1, h]
  · simp [h94, h]
  · simp [h178, h]
  · simp [h1, h94, h178, h (q - 1) (by omega) (by omega)]

end Sys2Proof.Machine
end

section
/-! SUPPORT. The packed words by position: what each operation on them does to the bit at position p (40_datapath.md
R117 to R121). -/

namespace Sys2Proof.Machine

/-- The bit the words hold at position p ≥ 1: s[p] for p ≤ 288, a pad bit above (10_state.md R24, R25). -/
def wordBit {w : Nat} (ws : List (BitVec w)) (p : Nat) : Bool :=
  decide (1 ≤ p) && (wordAt ws (wordIndex w p)).getLsbD (wordOffset w p)

/-! ### Positions -/

@[simp] theorem wordBit_at_zero {w : Nat} (ws : List (BitVec w)) : wordBit ws 0 = false := rfl

theorem wordBit_of_pos {w p : Nat} (ws : List (BitVec w)) (h : 1 ≤ p) :
    wordBit ws p = (wordAt ws (wordIndex w p)).getLsbD (wordOffset w p) := by
  rw [wordBit, decide_eq_true h, Bool.true_and]

theorem wordIndex_position {w o : Nat} (k : Nat) (ho : o < w) : wordIndex w (k * w + (w - o)) = k := by
  rw [wordIndex, Nat.add_sub_assoc (by omega), Nat.mul_comm, Nat.mul_add_div (by omega),
    Nat.div_eq_of_lt (by omega), Nat.add_zero]

theorem wordOffset_position {w o : Nat} (k : Nat) (ho : o < w) : wordOffset w (k * w + (w - o)) = o := by
  rw [wordOffset, Nat.add_sub_assoc (by omega), Nat.mul_comm, Nat.mul_add_mod, Nat.mod_eq_of_lt (by omega)]
  omega

/-- Bit o of word k is at position k·W + (W − o). -/
theorem wordBit_position {w o : Nat} (ws : List (BitVec w)) (k : Nat) (ho : o < w) :
    wordBit ws (k * w + (w - o)) = (wordAt ws k).getLsbD o := by
  rw [wordBit_of_pos ws (by omega), wordIndex_position k ho, wordOffset_position k ho]

/-- A position in word k. -/
theorem wordIndex_eq_iff {w p k : Nat} (hw : 0 < w) (hp : 1 ≤ p) : wordIndex w p = k ↔ k * w < p ∧ p ≤ k * w + w := by
  have hpos := position_of_wordIndex_wordOffset hw hp
  have hoff := wordOffset_lt hw p
  constructor
  · rintro rfl
    omega
  · rintro ⟨hlo, hhi⟩
    have ho : k * w + w - p < w := by omega
    have := wordIndex_position k ho
    rwa [show k * w + (w - (k * w + w - p)) = p by omega] at this

theorem wordIndex_lt_of_le {w p m : Nat} (hw : 0 < w) (hp : 1 ≤ p) (h : p ≤ m * w) : wordIndex w p < m := by
  rw [wordIndex, Nat.div_lt_iff_lt_mul hw]
  omega

/-- From a site whose next word ends no later than s[288] there is a next word. -/
theorem wordIndex_succ_lt_numWords {w a : Nat} (hw : 0 < w) (ha : 1 ≤ a) (h : a + w ≤ 288) :
    wordIndex w a + 1 < numWords w := by
  have hnext : wordIndex w (a + w) = wordIndex w a + 1 := by
    rw [wordIndex, wordIndex, show a + w - 1 = a - 1 + w by omega, Nat.add_div_right _ hw]
  exact hnext ▸ wordIndex_lt_numWords hw h

/-- Two register files of as many words that hold the same bit at every position are the same. -/
theorem words_ext {w m : Nat} {ws vs : List (BitVec w)} (hws : ws.length = m) (hvs : vs.length = m)
    (h : ∀ p, 1 ≤ p → p ≤ m * w → wordBit ws p = wordBit vs p) : ws = vs := by
  apply List.ext_getElem (hws.trans hvs.symm)
  intro k hk hk'
  apply BitVec.eq_of_getLsbD_eq
  intro o ho
  have hle : (k + 1) * w ≤ m * w := Nat.mul_le_mul_right w (by omega)
  rw [Nat.succ_mul] at hle
  have hbit := h (k * w + (w - o)) (by omega) (by omega)
  rwa [wordBit_position ws k ho, wordBit_position vs k ho, wordAt, wordAt, List.getD_eq_getElem _ _ hk,
    List.getD_eq_getElem _ _ hk'] at hbit

/-- Two neighbouring words hold the positions from the end of the second one downwards. -/
theorem getLsbD_wordBefore_append {w j : Nat} (ws : List (BitVec w)) (k : Nat) (hj : j < w + w) :
    (wordBefore ws k ++ wordAt ws k).getLsbD j = wordBit ws (k * w + w - j) := by
  rw [BitVec.getLsbD_append]
  split_ifs with hlow
  · rw [← wordBit_position ws k hlow, Nat.add_sub_assoc (by omega)]
  · cases k with
    | zero => simp [wordBefore, show w - j = 0 by omega]
    | succ k =>
      have ho : j - w < w := by omega
      rw [wordBefore, if_neg (Nat.succ_ne_zero k), Nat.add_sub_cancel, ← wordBit_position ws k ho, Nat.succ_mul]
      congr 1
      omega

/-! ### The register file and its slices -/

theorem wordBit_pack {w p : Nat} (s : SReg) (pad : BitVec 32) (hw : 0 < w) (hp : p ≤ 288) :
    wordBit (pack w s pad) p = sbit s p := by
  by_cases h : 1 ≤ p
  · rw [wordBit_of_pos _ h, getLsbD_pack_stateBit s pad hw h hp]
  · rw [show p = 0 by omega, wordBit_at_zero, sbit_at_zero]

theorem wordBit_pack_pad {w p : Nat} (s : SReg) (hw : 0 < w) (hp : 288 < p) (hp' : p ≤ numWords w * w) :
    wordBit (pack w s 0) p = false := by
  have h1 : 1 ≤ p := by omega
  rw [wordBit_of_pos _ h1, wordAt_pack s 0 (wordIndex_lt_of_le hw h1 hp')]
  simp [position_of_wordIndex_wordOffset hw h1, hp]

/-- Lane i of a packed slice is the bit at position p − i (40_datapath.md R117). -/
theorem getLsbD_packedSlice {w p n i : Nat} (ws : List (BitVec w)) (hp : 1 ≤ p) (hn : n ≤ w) (hi : i < n) :
    (packedSlice ws p n).getLsbD i = wordBit ws (p - i) := by
  have hw : 0 < w := by omega
  have hpos := position_of_wordIndex_wordOffset hw hp
  have hoff := wordOffset_lt hw p
  rw [packedSlice, BitVec.getLsbD_setWidth, decide_eq_true hi, Bool.true_and, BitVec.getLsbD_ushiftRight,
    getLsbD_wordBefore_append ws _ (by omega)]
  congr 1
  omega

theorem packedSlice_pack {w p n : Nat} (s : SReg) (pad : BitVec 32) (hp : 1 ≤ p) (hp' : p ≤ 288) (hn : n ≤ w) :
    packedSlice (pack w s pad) p n = slice s p n := by
  apply BitVec.eq_of_getLsbD_eq
  intro i hi
  rw [getLsbD_packedSlice _ hp hn hi, wordBit_pack s pad (by omega) (by omega), getLsbD_slice, decide_eq_true hi,
    Bool.true_and]

/-! ### The shift -/

@[simp] theorem length_packedShift {w : Nat} (ws : List (BitVec w)) (n : Nat) :
    (packedShift ws n).length = numWords w := by
  simp [packedShift]

theorem wordAt_packedShift {w k : Nat} (ws : List (BitVec w)) (n : Nat) (hk : k < numWords w) :
    wordAt (packedShift ws n) k = (wordAt ws k >>> n) ||| (wordBefore ws k <<< (w - n)) := by
  rw [wordAt, packedShift, List.getD_eq_getElem _ _ (by simpa using hk), List.getElem_map, List.getElem_range]

/-- A shifted word is a window of the word and the one before it. -/
theorem getLsbD_shiftedWord {w n o : Nat} (x y : BitVec w) (hn : n ≤ w) (ho : o < w) :
    ((y >>> n) ||| (x <<< (w - n))).getLsbD o = (x ++ y).getLsbD (n + o) := by
  rw [BitVec.getLsbD_or, BitVec.getLsbD_ushiftRight, BitVec.getLsbD_shiftLeft, BitVec.getLsbD_append, decide_eq_true ho]
  split_ifs with hlow
  · rw [decide_eq_true (show o < w - n by omega)]
    simp
  · rw [BitVec.getLsbD_of_ge y _ (by omega), decide_eq_false (show ¬ o < w - n by omega),
      show o - (w - n) = n + o - w by omega]
    simp

theorem wordBit_packedShift {w n p : Nat} (ws : List (BitVec w)) (hn : n ≤ w) (hw : 0 < w) (hp : 1 ≤ p)
    (hp' : p ≤ 288) : wordBit (packedShift ws n) p = wordBit ws (p - n) := by
  have hpos := position_of_wordIndex_wordOffset hw hp
  have hoff := wordOffset_lt hw p
  rw [wordBit_of_pos _ hp, wordAt_packedShift ws n (wordIndex_lt_numWords hw hp'), getLsbD_shiftedWord _ _ hn hoff,
    getLsbD_wordBefore_append ws _ (by omega)]
  congr 1
  omega

/-! ### Mask-then-or at an injection site -/

theorem wordAt_set {w : Nat} (ws : List (BitVec w)) {k : Nat} (x : BitVec w) (j : Nat) (hk : k < ws.length) :
    wordAt (ws.set k x) j = if k = j then x else wordAt ws j := by
  simp only [wordAt, List.getD_eq_getElem?_getD, List.getElem?_set, hk, if_true]
  split_ifs <;> rfl

/-- Writing the double word of words k and k + 1. -/
theorem wordBit_set_pair {w k p : Nat} (ws : List (BitVec w)) (e : BitVec (w + w)) (hw : 0 < w) (hp : 1 ≤ p)
    (hk : k + 1 < ws.length) :
    wordBit ((ws.set k (e.extractLsb' w w)).set (k + 1) (e.extractLsb' 0 w)) p =
      if k * w < p ∧ p ≤ k * w + w + w then e.getLsbD (k * w + w + w - p) else wordBit ws p := by
  have hpos := position_of_wordIndex_wordOffset hw hp
  have hoff := wordOffset_lt hw p
  have hfirst := wordIndex_eq_iff (k := k) hw hp
  have hsecond := wordIndex_eq_iff (k := k + 1) hw hp
  rw [Nat.succ_mul] at hsecond
  rw [wordBit_of_pos _ hp, wordAt_set _ _ _ (by simpa using hk), wordAt_set _ _ _ (by omega)]
  by_cases h1 : wordIndex w p = k
  · rw [h1] at hpos
    rw [h1, if_neg (by omega), if_pos rfl, if_pos (by omega), BitVec.getLsbD_extractLsb', decide_eq_true hoff,
      Bool.true_and]
    congr 1
    omega
  · by_cases h2 : wordIndex w p = k + 1
    · rw [h2, Nat.succ_mul] at hpos
      rw [h2, if_pos rfl, if_pos (by omega), BitVec.getLsbD_extractLsb', decide_eq_true hoff, Bool.true_and]
      congr 1
      omega
    · rw [if_neg (Ne.symm h2), if_neg (Ne.symm h1), if_neg (by omega), wordBit_of_pos ws hp]

/-- Mask-then-or writes the n bits of `t` from bit `sh` up and no other bit. -/
theorem getLsbD_maskThenOr {m n j : Nat} (e : BitVec m) (t : BitVec n) (sh : Nat) (hj : j < m) :
    ((e &&& ~~~((BitVec.allOnes n).setWidth m <<< sh)) ||| (t.setWidth m <<< sh)).getLsbD j =
      if sh ≤ j ∧ j < sh + n then t.getLsbD (j - sh) else e.getLsbD j := by
  simp only [BitVec.getLsbD_or, BitVec.getLsbD_and, BitVec.getLsbD_not, BitVec.getLsbD_shiftLeft,
    BitVec.getLsbD_setWidth, BitVec.getLsbD_allOnes, decide_eq_true hj, decide_eq_true (show j - sh < m by omega),
    Bool.true_and]
  by_cases hlow : j < sh
  · simp [hlow, Nat.not_le.mpr hlow]
  · by_cases hhigh : j - sh < n
    · simp [hlow, hhigh, Nat.le_of_not_lt hlow, show j < sh + n by omega]
    · simp [hlow, hhigh, BitVec.getLsbD_of_ge t (j - sh) (by omega), show ¬ j < sh + n by omega]

@[simp] theorem length_packedInject {w n : Nat} (ws : List (BitVec w)) (a : Nat) (t : BitVec n) :
    (packedInject ws a t).length = ws.length := by
  simp [packedInject]

/-- An injection at site `a` writes the n positions from `a` up, lane 0 at the farthest (40_datapath.md R120). -/
theorem wordBit_packedInject {w n a p : Nat} (ws : List (BitVec w)) (t : BitVec n) (hn : n ≤ w) (hw : 0 < w)
    (ha : 1 ≤ a) (ha' : a + w ≤ 288) (hlen : ws.length = numWords w) (hp : 1 ≤ p) :
    wordBit (packedInject ws a t) p =
      if a ≤ p ∧ p ≤ a - 1 + n then t.getLsbD (a - 1 + n - p) else wordBit ws p := by
  have hsite := position_of_wordIndex_wordOffset hw ha
  have hoff := wordOffset_lt hw a
  have hnext : wordIndex w a + 1 < ws.length := hlen ▸ wordIndex_succ_lt_numWords hw ha ha'
  simp only [packedInject]
  rw [wordBit_set_pair ws _ hw hp hnext]
  split_ifs with hpair hwin hwin
  · rw [getLsbD_maskThenOr _ _ _ (by omega), if_pos (by omega)]
    congr 1
    omega
  · have hbefore : wordBefore ws (wordIndex w a + 1) = wordAt ws (wordIndex w a) := if_neg (Nat.succ_ne_zero _)
    rw [getLsbD_maskThenOr _ _ _ (by omega), if_neg (by omega), ← hbefore,
      getLsbD_wordBefore_append ws _ (by omega), Nat.succ_mul]
    congr 1
    omega
  · omega
  · rfl

/-! ### The pad bits -/

@[simp] theorem length_packedClearPad {w : Nat} (ws : List (BitVec w)) : (packedClearPad ws).length = ws.length := by
  unfold packedClearPad
  split_ifs
  · exact List.length_set
  · rfl

/-- The mask of the pad bits keeps the high half of a word. -/
theorem getLsbD_and_highHalf (x : BitVec 64) {o : Nat} (ho : o < 64) :
    (x &&& ((BitVec.allOnes 32).setWidth 64 <<< 32)).getLsbD o = (decide (32 ≤ o) && x.getLsbD o) := by
  simp only [BitVec.getLsbD_and, BitVec.getLsbD_shiftLeft, BitVec.getLsbD_setWidth, BitVec.getLsbD_allOnes,
    decide_eq_true ho, decide_eq_true (show o - 32 < 64 by omega), decide_eq_true (show o - 32 < 32 by omega)]
  by_cases hpad : o < 32
  · simp [hpad]
  · simp [hpad, Nat.le_of_not_lt hpad]

/-- Clearing the pad bits leaves the bits of s (40_datapath.md R121). -/
theorem wordBit_packedClearPad {w p : Nat} (ws : List (BitVec w)) (hw : w = 32 ∨ w = 64)
    (hlen : ws.length = numWords w) (hp : 1 ≤ p) (hp' : p ≤ numWords w * w) :
    wordBit (packedClearPad ws) p = (decide (p ≤ 288) && wordBit ws p) := by
  obtain rfl | rfl := hw
  · have hmax : p ≤ 288 := hp'
    rw [decide_eq_true hmax, Bool.true_and, packedClearPad, if_neg (by decide)]
  · have hfour : 4 < ws.length := by rw [hlen]; decide
    have hpos := position_of_wordIndex_wordOffset (w := 64) (by decide) hp
    have hoff := wordOffset_lt (w := 64) (by decide) p
    have hindex : wordIndex 64 p < 5 := wordIndex_lt_of_le (by decide) hp hp'
    rw [packedClearPad, if_pos rfl, wordBit_of_pos _ hp, wordBit_of_pos _ hp, wordAt_set _ _ _ hfour]
    split_ifs with h4
    · rw [← h4, getLsbD_and_highHalf _ hoff, decide_eq_decide.mpr (show 32 ≤ wordOffset 64 p ↔ p ≤ 288 by omega)]
    · rw [decide_eq_true (by omega), Bool.true_and]

/-! ### The update -/

/-- The shift and the three injections write at each position what the batch does there. -/
theorem wordBit_shift_inject {w n p : Nat} (s : SReg) (pad : BitVec 32) (hw : 0 < w) (hw' : w ≤ 64) (hn : n ≤ w)
    (hp : 1 ≤ p) (hp' : p ≤ 288) :
    let l := combine fun q => slice s q n
    wordBit (packedInject (packedInject (packedInject (packedShift (pack w s pad) n) 1 l.t3) 94 l.t1) 178 l.t2) p =
      sbit (batch s n).2 p := by
  intro l
  rw [wordBit_packedInject _ _ hn hw (by decide) (by omega) (by simp) hp,
    wordBit_packedInject _ _ hn hw (by decide) (by omega) (by simp) hp,
    wordBit_packedInject _ _ hn hw (by decide) (by omega) (by simp) hp,
    wordBit_packedShift _ hn hw hp hp', wordBit_pack s pad hw (by omega), sbit_batch s n hp hp']
  simp only [Nat.reduceSub, Nat.zero_add]
  by_cases h3 : 1 ≤ p ∧ p ≤ n
  · rw [if_neg (by omega), if_neg (by omega), if_pos h3, if_pos h3]
  · by_cases h1 : 94 ≤ p ∧ p ≤ 93 + n
    · rw [if_neg (by omega), if_pos h1, if_neg (by omega), if_pos h1]
    · rw [if_neg h1, if_neg h1, if_neg h3, if_neg h3]

/-- At both widths the packed update of a register file is that of the batch on its state, with pad bits 0. -/
theorem packedUpdate_pack (c : Config) (s : SReg) (pad : BitVec 32) {n : Nat} (hn : n ≤ wordBits c) :
    packedUpdate (pack (wordBits c) s pad) n = ((batch s n).1, pack (wordBits c) (batch s n).2 0) := by
  have hw := wordBits_pos c
  have hw' : wordBits c ≤ 64 := by have := wordBits_cases c; omega
  have hl : (combine fun p => packedSlice (pack (wordBits c) s pad) p n) = combine fun p => slice s p n :=
    combine_congr fun p hp => by
      obtain ⟨hstart, hmax⟩ := segmentStart_of_mem_taps p hp
      exact packedSlice_pack s pad (by omega) hmax hn
  rw [packedUpdate, hl]
  refine Prod.ext rfl (words_ext (m := numWords (wordBits c)) (by simp) (by simp) fun p hp hp' => ?_)
  rw [wordBit_packedClearPad _ (wordBits_cases c) (by simp) hp hp']
  by_cases hmax : p ≤ 288
  · rw [decide_eq_true hmax, Bool.true_and, wordBit_shift_inject s pad hw hw' hn hp hmax,
      wordBit_pack _ _ hw hmax]
  · rw [decide_eq_false hmax, Bool.false_and, wordBit_pack_pad _ hw (by omega) hp']

end Sys2Proof.Machine
end

section
/-! PROOFS. The statements of 40_datapath.md. -/

namespace Sys2Proof.Machine

/-- Settles O8: up to 66 lanes no bit injected by the batch reaches a tap within it, so every slice lane is the bit its
step reads, and every injected bit has then only moved up. -/
theorem batchIsSingleSteps : Obligations.BatchIsSingleSteps := by
  unfold Obligations.BatchIsSingleSteps
  exact fun s _ _ hn => batch_eq_stepN s hn

/-- Settles O11: position by position the packed shift and injections are those of the batch, the clearing leaves the pad
bits 0, and W ≤ 64 is inside the bound of the batch. -/
theorem packedUpdateIsBatch : Obligations.PackedUpdateIsBatch := by
  unfold Obligations.PackedUpdateIsBatch
  intro c s pad n _ hn
  have hbound : n ≤ 66 := by have := wordBits_cases c; omega
  rw [packedUpdate_pack c s pad hn, unpack_pack _ _ (wordBits_pos c)]
  exact ⟨rfl, batch_state s hbound, batch_bits s hbound⟩

/-- Settles O6: lane i of a run is the bit of its step i, and the state before step i is that of the two runs in
sequence. -/
theorem stepsCompose : Obligations.StepsCompose := by
  unfold Obligations.StepsCompose
  intro s a b
  refine ⟨stepN_add_state s a b, fun i => ?_⟩
  rw [getLsbD_stepN, getLsbD_stepN, getLsbD_stepN, ← stepN_add_state]
  split_ifs with hi
  · rw [decide_eq_true hi, decide_eq_true (by omega)]
  · rw [stepN_state_congr s (show a + (i - a) = i by omega), decide_eq_decide.mpr (show i < a + b ↔ i - a < b by omega)]

/-- Settles O7: the bit has moved up one position a step from p − i to p. -/
theorem sliceLaneIsTheBitItsStepReads : Obligations.SliceLaneIsTheBitItsStepReads := by
  unfold Obligations.SliceLaneIsTheBitItsStepReads
  intro s p n i hi hp hseg
  rw [getLsbD_slice, decide_eq_true hi, Bool.true_and, sbit_stepN_of_segmentStart_le s hseg hp]

/-- Settles O10: lane i of the packed slice is the bit the words hold at position p − i, and n ≤ W keeps it in the two
words. -/
theorem packedSliceIsSlice : Obligations.PackedSliceIsSlice := by
  unfold Obligations.PackedSliceIsSlice
  exact fun _ s pad _ _ hp hp' _ hn => packedSlice_pack s pad hp hp' hn

/-- Settles O4: the bits of the state after a step, at the three injection points and elsewhere. -/
theorem singleStepBits : Obligations.SingleStepBits := by
  unfold Obligations.SingleStepBits
  intro s
  refine ⟨rfl, sbit_step1 s (by decide) (by decide), sbit_step1 s (by decide) (by decide),
    sbit_step1 s (by decide) (by decide), fun q h2 hq h94 h178 => ?_⟩
  rw [sbit_step1 s (by omega) hq, if_neg (by omega), if_neg h94, if_neg h178]

/-- Settles O5: in both states all bits are the same. -/
theorem allZeroAndAllOneStep : Obligations.AllZeroAndAllOneStep := by
  unfold Obligations.AllZeroAndAllOneStep
  obtain ⟨hz, hzero⟩ := step1_of_constant (s := 0) fun p _ _ => sbit_of_zero p
  obtain ⟨ho, hone⟩ := step1_of_constant fun _ => sbit_allOnes
  refine ⟨Prod.ext hz (sreg_ext fun q h h' => ?_), ho, fun q h h' => ?_⟩
  · rw [hzero q h h', Bool.and_false, sbit_of_zero]
  · rw [hone q h h', Bool.and_true]

end Sys2Proof.Machine
end

section
/-! SUPPORT. An edge with defined inputs and no reset, and runs of edges: what they do and what the host drives next
(70_reset_and_hazards.md R245, R246). -/

namespace Sys2Proof.Machine

/-! ### One edge -/

theorem step_of_reset {s : State} (hrst : s.ports.rst = some true) (hvalid : s.ports.cmdValid ≠ none) :
    step s = .next (nextInputs (resetEdge s)) := by
  obtain ⟨b, hv⟩ := Option.ne_none_iff_exists'.mp hvalid
  rw [step, sample, hrst, hv]; rfl

theorem step_of_quiet {s : State} (hs : sample s = .quiet) : step s = .next (nextInputs (quietEdge s)) := by
  rw [step, hs]; rfl

theorem step_of_command {s m : State} {w : CmdWord} (hs : sample s = .command w) (h : exec (decode w) s = .next m) :
    step s = .next (nextInputs m) := by
  rw [step, hs]; exact congrArg settle h

theorem Accepts.sample {s : State} {w : CmdWord} (h : Accepts s w) : sample s = .command w := by
  rw [Machine.sample, h.rst, h.cmdValid, h.cmd]

/-- A busy block does its next busy cycle at every edge without a reset, whatever is offered. -/
theorem step_of_busy {s : State} (hrst : s.ports.rst = some false) (hvalid : s.ports.cmdValid ≠ none)
    (hr : cmdReady s = false) : step s = .next (nextInputs (quietEdge s)) := by
  obtain ⟨b, hv⟩ := Option.ne_none_iff_exists'.mp hvalid
  cases b with
  | false => exact step_of_quiet (by rw [sample, hrst, hv])
  | true =>
    cases hcmd : s.ports.cmd with
    | none => exact step_of_quiet (by simp [sample, hrst, hv, hcmd, hr])
    | some w => exact step_of_command (by rw [sample, hrst, hv, hcmd]) (exec_busy _ hr)

/-- An edge changes neither the parameters nor what the host drives next. -/
theorem step_inputs {s t : State} (h : step s = .next t) :
    t.cfg = s.cfg ∧ t.ports = s.feed.headD .idle ∧ t.feed = s.feed.tail := by
  cases edge_of_step h <;> exact ⟨rfl, rfl, rfl⟩

/-- The command of an accepted word with OP = 001 is a LOAD. -/
theorem decode_of_cmdOp_load {w : CmdWord} (h : cmdOp w = 1) : decode w = .load (cmdCount w) := by
  simp only [decode, h]

/-! ### Runs -/

theorem runEdges_succ_of_step {s t : State} (n : Nat) (h : step s = .next t) :
    runEdges (n + 1) s = runEdges n t := by
  rw [runEdges, h]

/-- A run that has a next state is an edge and then a run from the state after it. -/
theorem exists_step_of_runEdges_succ {n : Nat} {s t : State} (h : runEdges (n + 1) s = .next t) :
    ∃ m, step s = .next m ∧ runEdges n m = .next t := by
  rw [runEdges] at h
  cases hs : step s with
  | next m => rw [hs] at h; exact ⟨m, rfl, h⟩
  | fault f => rw [hs] at h; cases h
  | refused r => rw [hs] at h; cases h

theorem ports_of_noReset_succ {n : Nat} {s : State} (h : noReset (n + 1) s = true) :
    s.ports.rst = some false ∧ s.ports.cmdValid ≠ none := by
  simp only [noReset, List.take_succ_cons, List.all_cons, Bool.and_eq_true, beq_iff_eq] at h
  obtain ⟨⟨hrst, hvalid⟩, -⟩ := h
  exact ⟨hrst, Option.isSome_iff_ne_none.mp hvalid⟩

/-- What holds of the inputs of n + 1 edges holds, after the first of them, of those of the other n: past the end of
`feed` the host is idle. -/
theorem noReset_of_step {n : Nat} {s t : State} (h : noReset (n + 1) s = true) (hs : step s = .next t) :
    noReset n t = true := by
  obtain ⟨-, hports, hfeed⟩ := step_inputs hs
  simp only [noReset, List.take_succ_cons, List.all_cons, Bool.and_eq_true] at h
  obtain ⟨-, hrest⟩ := h
  rw [noReset, hports, hfeed]
  cases hf : s.feed with
  | nil => cases n <;> simp [Inputs.idle]
  | cons i is => rwa [hf] at hrest

end Sys2Proof.Machine
end

section
/-! SUPPORT. The warm-up: from a block in WARMUP with rem steps to do, ⌈rem/NMAX⌉ edges end it, and s is then rem steps
on (41_init.md R142, 70_reset_and_hazards.md R246, R251). -/

namespace Sys2Proof.Machine

/-- An edge of the warm-up is inside the bound of the batch (40_datapath.md R115). -/
theorem min_nmax_le (c : Config) (n : Nat) : min n (nmax c) ≤ 66 := by
  have hw := wordBits_cases c
  have hle := nmax_le_wordBits c
  omega

theorem nmax_pos (c : Config) : 0 < nmax c := (thirtyOne_le_nmax c).trans_lt' (by decide)

/-- C − 1 edges of NMAX steps leave some of the 1152 steps to do, and C such edges leave none. -/
theorem exists_warmupCycles_eq (c : Config) :
    ∃ n, warmupCycles c = n + 1 ∧ n * nmax c < 1152 ∧ 1152 ≤ (n + 1) * nmax c := by
  have hlow : 1151 / nmax c * nmax c ≤ 1151 := Nat.div_mul_le_self _ _
  have hhigh : 1151 < (1151 / nmax c + 1) * nmax c := Nat.lt_mul_of_div_lt (Nat.lt_succ_self _) (nmax_pos c)
  refine ⟨1151 / nmax c, ?_, by omega, by omega⟩
  rw [warmupCycles, ← Nat.add_div_right _ (nmax_pos c), show 1152 + nmax c - 1 = 1151 + nmax c by omega]

/-- The registers `s` comes to at the end of its warm-up. -/
def afterWarmup (s : State) : State :=
  { s with sreg := (stepN s.sreg s.rem).2, pad := 0, rem := 0, phase := .warmedUp, ksValid := false, rej := false }

/-- After a LOAD the end of the warm-up is Init (41_init.md R143). -/
theorem afterWarmup_loadRegs (key iv : Key) (m : State) :
    afterWarmup (nextInputs (loadRegs key iv m)) =
      { nextInputs m with
        sreg := initState key iv, pad := 0, rem := 0, phase := .warmedUp, ksValid := false, rej := false } := by
  rw [initState_eq key iv (loadRegs_rem key iv m)]; rfl

/-- A block in WARMUP, with no result on show. -/
structure InWarmup (s : State) : Prop where
  phase   : s.phase = .warmup
  ksValid : s.ksValid = false

theorem InWarmup.busy {s : State} (h : InWarmup s) : cmdReady s = false := (not_cmdReady_iff s).mpr (.inl h.phase)

/-- The last warm-up edge. -/
theorem quietEdge_of_last_warmup {s : State} (h : s.phase = .warmup) (hrem : s.rem ≤ nmax s.cfg) :
    quietEdge s = afterWarmup s := by
  have hbatch := batch_state s.sreg (min_nmax_le s.cfg s.rem)
  have hmin : min s.rem (nmax s.cfg) = s.rem := Nat.min_eq_left hrem
  rw [quietEdge_of_warmup h, hbatch, stepN_state_congr s.sreg hmin, hmin, if_pos hrem, Nat.sub_self, afterWarmup]

/-- A warm-up edge that is not the last does NMAX steps. -/
theorem quietEdge_of_further_warmup {s : State} (h : s.phase = .warmup) (hrem : nmax s.cfg < s.rem) :
    quietEdge s =
      { s with
        sreg := (stepN s.sreg (nmax s.cfg)).2, pad := 0, rem := s.rem - nmax s.cfg, ksValid := false,
        rej := false } := by
  have hbatch := batch_state s.sreg (min_nmax_le s.cfg s.rem)
  have hmin : min s.rem (nmax s.cfg) = nmax s.cfg := Nat.min_eq_right hrem.le
  rw [quietEdge_of_warmup h, hbatch, stepN_state_congr s.sreg hmin, hmin, if_neg (by omega), h]

/-- Such an edge does not change where the warm-up ends. -/
theorem afterWarmup_of_further_warmup {s : State} (h : s.phase = .warmup) (hrem : nmax s.cfg < s.rem) :
    afterWarmup (nextInputs (quietEdge s)) = nextInputs (afterWarmup s) := by
  have hsteps : nmax s.cfg + (s.rem - nmax s.cfg) = s.rem := by omega
  rw [quietEdge_of_further_warmup h hrem]
  simp only [afterWarmup, nextInputs, ← stepN_add_state, stepN_state_congr s.sreg hsteps]

theorem InWarmup.further {s : State} (h : InWarmup s) (hrem : nmax s.cfg < s.rem) :
    InWarmup (nextInputs (quietEdge s)) := by
  rw [quietEdge_of_further_warmup h.phase hrem]
  exact ⟨h.phase, rfl⟩

theorem step_of_warmup {n : Nat} {s : State} (h : InWarmup s) (hin : noReset (n + 1) s = true) :
    step s = .next (nextInputs (quietEdge s)) := by
  obtain ⟨hrst, hvalid⟩ := ports_of_noReset_succ hin
  exact step_of_busy hrst hvalid h.busy

/-- n warm-up edges of NMAX steps and one of those that remain. -/
theorem runEdges_of_warmup {n : Nat} {s : State} (h : InWarmup s) (hlow : n * nmax s.cfg < s.rem)
    (hhigh : s.rem ≤ (n + 1) * nmax s.cfg) (hin : noReset (n + 1) s = true) :
    (∀ j, j ≤ n → ∃ t, runEdges j s = .next t ∧ InWarmup t) ∧
    ∃ t, runEdges (n + 1) s = .next t ∧ t = { afterWarmup s with ports := t.ports, feed := t.feed } := by
  induction n generalizing s with
  | zero =>
    rw [runEdges_succ_of_step _ (step_of_warmup h hin), quietEdge_of_last_warmup h.phase (by omega)]
    exact ⟨fun j hj => ⟨s, by rw [Nat.le_zero.mp hj, runEdges], h⟩, _, rfl, rfl⟩
  | succ n ih =>
    have hstep := step_of_warmup h hin
    rw [Nat.succ_mul] at hlow hhigh
    have hfurther : nmax s.cfg < s.rem := by omega
    have hnext := quietEdge_of_further_warmup h.phase hfurther
    obtain ⟨hbusy, t, hrun, ht⟩ := ih (s := nextInputs (quietEdge s)) (h.further hfurther)
      (by rw [hnext]; exact Nat.lt_sub_of_add_lt hlow) (by rw [hnext]; exact Nat.sub_le_of_le_add hhigh)
      (noReset_of_step hin hstep)
    refine ⟨fun j hj => ?_, t, ?_, ?_⟩
    · cases j with
      | zero => exact ⟨s, rfl, h⟩
      | succ j => rw [runEdges_succ_of_step j hstep]; exact hbusy j (Nat.le_of_succ_le_succ hj)
    · rw [runEdges_succ_of_step _ hstep, hrun]
    · rw [ht, afterWarmup_of_further_warmup h.phase hfurther]; rfl

end Sys2Proof.Machine
end

section
/-! SUPPORT. Before the first LOAD s and the pad bits decide nothing, and outside a split `acc` decides nothing: two
machines alike but for these values stay alike (41_init.md R144, 92_eei_decisions.md D13). -/

namespace Sys2Proof.Machine

/-- `t` is `s`, but for values that no edge of `s` reads: in UNLOADED s, the pad bits and `acc`, and after a LOAD, while
no split is begun, `acc`. -/
inductive Alike (s : State) : State → Prop where
  | same : Alike s s
  | unloaded (x : SReg) (p : BitVec 32) (a : KsWord) (hphase : s.phase = .unloaded) (hpend : s.pend = 0) :
      Alike s { s with sreg := x, pad := p, acc := a }
  | loaded (a : KsWord) (hphase : s.phase ≠ .unloaded) (hpend : s.pend = 0) : Alike s { s with acc := a }

namespace Alike

variable {s t : State}

/-! ### What alike machines have in common -/

theorem eq_but_hidden (h : Alike s t) : t = { s with sreg := t.sreg, pad := t.pad, acc := t.acc } := by
  cases h <;> rfl

theorem sreg_pad_eq (h : Alike s t) (hphase : s.phase ≠ .unloaded) : t.sreg = s.sreg ∧ t.pad = s.pad := by
  cases h with
  | same | loaded => exact ⟨rfl, rfl⟩
  | unloaded _ _ _ hunl => exact absurd hunl hphase

theorem phase_eq (h : Alike s t) : t.phase = s.phase := by rw [h.eq_but_hidden]

theorem cfg_eq (h : Alike s t) : t.cfg = s.cfg := by rw [h.eq_but_hidden]

theorem ports_eq (h : Alike s t) : t.ports = s.ports := by rw [h.eq_but_hidden]

theorem cmdReady_eq (h : Alike s t) : cmdReady t = cmdReady s := by rw [h.eq_but_hidden]; rfl

theorem sample_eq (h : Alike s t) : sample t = sample s := by rw [h.eq_but_hidden]; rfl

theorem resetEdge_eq (h : Alike s t) : resetEdge t = resetEdge s := by rw [h.eq_but_hidden]; rfl

/-! ### The operations keep machines alike -/

/-- An operation keeps machines alike if it changes neither the phase nor `pend` and commutes with writing s, the pad
bits and `acc`, so that it neither reads nor changes them. -/
theorem congr_of_commutes {f : State → State}
    (hf : ∀ (m : State) (x : SReg) (p : BitVec 32) (a : KsWord),
      f { m with sreg := x, pad := p, acc := a } = { f m with sreg := x, pad := p, acc := a })
    (hfphase : (f s).phase = s.phase) (hfpend : (f s).pend = s.pend) (h : Alike s t) : Alike (f s) (f t) := by
  cases h with
  | same => exact .same
  | unloaded x p a hphase hpend =>
    rw [hf s x p a]
    exact .unloaded x p a (hfphase.trans hphase) (hfpend.trans hpend)
  | loaded a hphase hpend =>
    have hown : f s = { f s with sreg := s.sreg, pad := s.pad, acc := s.acc } := hf s s.sreg s.pad s.acc
    have hacc : f { s with acc := a } = { f s with acc := a } := by
      rw [hown]
      exact hf s s.sreg s.pad a
    rw [hacc]
    exact .loaded a (by rwa [hfphase]) (hfpend.trans hpend)

theorem clearStrobes (h : Alike s t) : Alike (clearStrobes s) (clearStrobes t) :=
  h.congr_of_commutes (fun _ _ _ _ => rfl) rfl rfl

theorem nextInputs (h : Alike s t) : Alike (nextInputs s) (nextInputs t) :=
  h.congr_of_commutes (fun _ _ _ _ => rfl) rfl rfl

theorem reject (c : Cause) (h : Alike s t) : Alike (reject c s) (reject c t) :=
  h.congr_of_commutes (f := Machine.reject c) (fun _ _ _ _ => rfl) rfl rfl

/-- A LOAD writes s and the pad bits, whatever they were. -/
theorem loadRegs (key iv : Key) (h : Alike s t) : Alike (loadRegs key iv s) (loadRegs key iv t) := by
  cases h with
  | same => exact .same
  | unloaded _ _ a _ hpend => exact .loaded a nofun hpend
  | loaded a _ hpend => exact .loaded a nofun hpend

/-- The busy cycles come after a LOAD, and the one that reads `acc` ends a split. -/
theorem quietEdge (h : Alike s t) : Alike (quietEdge s) (quietEdge t) := by
  cases hr : cmdReady s with
  | true =>
    rw [quietEdge_of_ready hr, quietEdge_of_ready (h.cmdReady_eq.trans hr)]
    exact h.clearStrobes
  | false =>
    cases h with
    | same => exact .same
    | unloaded x p a hphase hpend => simp [cmdReady, hphase, hpend] at hr
    | loaded a hphase hpend =>
      have hwarm : s.phase = .warmup := by simpa [cmdReady, hpend] using hr
      rw [quietEdge_of_warmup hwarm, quietEdge_of_warmup (m := { s with acc := a }) hwarm]
      refine .loaded a ?_ hpend
      split_ifs <;> exact nofun

/-- An extraction writes `acc` where it begins a split, and does not read it. -/
theorem extract (k : Nat) (h : Alike s t) (hphase : s.phase ≠ .unloaded) : Alike (extract k s) (extract k t) := by
  cases h with
  | same => exact .same
  | unloaded _ _ _ hunl => exact absurd hunl hphase
  | loaded a _ hpend =>
    obtain ⟨hk, he⟩ | ⟨hk, he⟩ := extract_cases k s
    · rw [he, Machine.extract, if_pos hk]
      exact .loaded a nofun hpend
    · rw [he, Machine.extract, if_neg hk.not_ge]
      exact .same

/-! ### Edges and runs -/

/-- A command that a machine accepts or holds off does the same in one alike: its checks read no value that differs,
and in UNLOADED no extraction passes them. -/
theorem exec {i : Instr} {m : State} (h : Alike s t) (he : exec i s = .next m) :
    ∃ m', Machine.exec i t = .next m' ∧ Alike m m' := by
  obtain ⟨hr, rfl⟩ | ⟨hr, c, hc, rfl⟩ | ⟨hr, ⟨n, rfl⟩, rfl⟩ | ⟨hr, ⟨n, rfl⟩, key, iv, hkey, hiv, rfl⟩ |
    ⟨hr, hi, hc, rfl⟩ := exec_next he
  · exact ⟨_, exec_busy i (h.cmdReady_eq.trans hr), h.quietEdge⟩
  · refine ⟨_, exec_rejected (h.cmdReady_eq.trans hr) ?_, h.clearStrobes.reject c⟩
    rw [h.cfg_eq, h.phase_eq, hc]
  · exact ⟨_, exec_nop_ready n (h.cmdReady_eq.trans hr), h.clearStrobes⟩
  · refine ⟨_, exec_load_ready n (h.cmdReady_eq.trans hr) ?_ ?_, h.clearStrobes.loadRegs key iv⟩
    · rw [h.ports_eq, hkey]
    · rw [h.ports_eq, hiv]
  · have hphase : s.phase ≠ .unloaded := fun hunl => by
      simpa [hunl] using loadedPhase_of_accepted (by simp [hunl]) hi hc
    refine ⟨_, exec_extraction (h.cmdReady_eq.trans hr) hi ?_, h.clearStrobes.extract _ hphase⟩
    rw [h.cfg_eq, h.phase_eq, hc]

theorem step {m : State} (h : Alike s t) (hs : step s = .next m) : ∃ m', Machine.step t = .next m' ∧ Alike m m' := by
  obtain ⟨hrst, hvalid, rfl⟩ | ⟨-, hq, rfl⟩ | ⟨w, u, -, -, -, hw, he, rfl⟩ := step_next hs
  · rw [← h.ports_eq] at hrst hvalid
    refine ⟨_, step_of_reset hrst hvalid, ?_⟩
    rw [h.resetEdge_eq]
    exact .same
  · exact ⟨_, step_of_quiet (h.sample_eq.trans hq), h.quietEdge.nextInputs⟩
  · obtain ⟨u', he', hu⟩ := h.exec he
    exact ⟨_, step_of_command (h.sample_eq.trans hw) he', hu.nextInputs⟩

theorem runEdges {n : Nat} {m : State} (h : Alike s t) (hrun : runEdges n s = .next m) :
    ∃ m', Machine.runEdges n t = .next m' ∧ Alike m m' := by
  induction n generalizing s t with
  | zero => cases hrun; exact ⟨t, rfl, h⟩
  | succ n ih =>
    obtain ⟨u, hs, hrest⟩ := exists_step_of_runEdges_succ hrun
    obtain ⟨u', hs', hu⟩ := h.step hs
    obtain ⟨m', hrun', hm⟩ := ih hu hrest
    exact ⟨m', (runEdges_succ_of_step n hs').trans hrun', hm⟩

end Alike

end Sys2Proof.Machine
end

section
/-! SUPPORT. The warm-up on the packed register file, 64 steps an update: Init as the kernel can compute it. -/

namespace Sys2Proof.Machine

/-- k updates of a register file by n steps each. -/
def packedRun {w : Nat} (n : Nat) (ws : List (BitVec w)) : Nat → List (BitVec w)
  | 0 => ws
  | k + 1 => (packedUpdate (packedRun n ws k) n).2

theorem packedRun_pack (c : Config) (s : SReg) {n : Nat} (hn : n ≤ wordBits c) (k : Nat) :
    packedRun n (pack (wordBits c) s 0) k = pack (wordBits c) (stepN s (n * k)).2 0 := by
  have hbound : n ≤ 66 := by have := wordBits_cases c; omega
  induction k with
  | zero => rfl
  | succ k ih => rw [packedRun, ih, packedUpdate_pack c _ 0 hn, batch_state _ hbound, ← stepN_add_state, Nat.mul_succ]

/-- Init as 18 updates of a register file of 64-bit words by 64 steps. -/
theorem initState_eq_packedRun (key iv : Key) :
    initState key iv = unpack (packedRun 64 (pack 64 (load key iv) 0) 18) := by
  have hrun := packedRun_pack ⟨.w64, .full⟩ (load key iv) (n := 64) (Nat.le_refl 64) 18
  rw [initState_eq key iv (n := 64 * 18) (by decide)]
  exact ((congrArg unpack hrun).trans (unpack_pack _ _ (by decide))).symm

theorem initState_zero :
    initState 0 0 = 0x92AC487E267F5871D3A1896DF514AD2FEA84132040AE4058A21B38EC692AE61D74931A85 :=
  (initState_eq_packedRun 0 0).trans (by decide +kernel)

theorem initState_secondVector :
    initState 0xF046AD10DA75802AE55F 0x14F16FBA23D4499F06E3 =
      0xBB0147E58AE7DD98E77AE9A1F9E67BE89A22F91276065DBE1BB82BD28C4F01F4EA1D624E :=
  (initState_eq_packedRun _ _).trans (by decide +kernel)

end Sys2Proof.Machine
end

section
/-! SUPPORT. The bits of a loaded state that hold neither key nor IV (41_init.md R141). -/

namespace Sys2Proof.Machine

theorem sbit_load_below_iv (key iv : Key) {q : Nat} (h : 81 ≤ q) (h' : q ≤ 93) : sbit (load key iv) q = false := by
  rw [sbit_load key iv (by omega) (by omega), loadBit, if_neg (by omega), if_pos h']

theorem sbit_load_above_iv (key iv : Key) {q : Nat} (h : 174 ≤ q) (h' : q ≤ 285) : sbit (load key iv) q = false := by
  rw [sbit_load key iv (by omega) (by omega), loadBit, if_neg (by omega), if_neg (by omega), if_neg (by omega),
    if_pos h']

theorem sbit_load_top (key iv : Key) {q : Nat} (h : 286 ≤ q) (h' : q ≤ 288) : sbit (load key iv) q = true := by
  rw [sbit_load key iv (by omega) h', loadBit, if_neg (by omega), if_neg (by omega), if_neg (by omega),
    if_neg (by omega)]

end Sys2Proof.Machine
end

section
/-! PROOFS. The statements of 41_init.md. -/

namespace Sys2Proof.Machine

/-- Settles O16: C edges after its accepting edge a LOAD has done its 1152 steps, NMAX at each edge but the last. -/
theorem loadReachesWarmedUp : Obligations.LoadReachesWarmedUp := by
  unfold Obligations.LoadReachesWarmedUp
  intro s w key iv hready hop hvalid hcmd hkey hiv hin
  obtain ⟨hrst, -⟩ := ports_of_noReset_succ hin
  have hpend : s.pend = 0 := ((cmdReady_iff s).mp hready).2
  have hload : step s = .next (nextInputs (loadRegs key iv (clearStrobes s))) :=
    step_of_command (Accepts.sample ⟨hrst, hready, hvalid, hcmd⟩)
      (by rw [decode_of_cmdOp_load hop]; exact exec_load_ready _ hready hkey hiv)
  obtain ⟨n, hcycles, hlow, hhigh⟩ := exists_warmupCycles_eq s.cfg
  have hrest := noReset_of_step hin hload
  rw [hcycles] at hrest ⊢
  obtain ⟨hbusy, t, hrun, ht⟩ := runEdges_of_warmup ⟨rfl, rfl⟩ hlow hhigh hrest
  refine ⟨fun j hj hj' => ?_, t, (runEdges_succ_of_step _ hload).trans hrun, ?_⟩
  · obtain ⟨j, rfl⟩ := Nat.exists_eq_succ_of_ne_zero (Nat.one_le_iff_ne_zero.mp hj)
    obtain ⟨u, hu, hwarm⟩ := hbusy j (Nat.le_of_succ_le_succ hj')
    exact ⟨u, (runEdges_succ_of_step j hload).trans hu, hwarm.busy, hwarm.phase, hwarm.ksValid⟩
  · rw [ht, afterWarmup_loadRegs]
    exact ⟨(cmdReady_iff _).mpr ⟨nofun, hpend⟩, rfl, rfl, rfl, rfl, rfl, rfl, rfl⟩

/-- Settles O48: alike machines stay alike, and a LOAD overwrites s and the pad bits in both. -/
theorem unkeyedStateIsUnobservable : Obligations.UnkeyedStateIsUnobservable := by
  unfold Obligations.UnkeyedStateIsUnobservable
  intro n s s' x p a hphase hready hrun
  obtain ⟨-, hpend⟩ := (cmdReady_iff s).mp hready
  obtain ⟨t', hrun', halike⟩ := (Alike.unloaded x p a hphase hpend).runEdges hrun
  exact ⟨t', hrun', halike.eq_but_hidden, halike.sreg_pad_eq⟩

/-- Settles O13: `loadBit` has a value for each of the 288 positions, and the edge writes s from it alone. -/
theorem loadWritesEveryBit : Obligations.LoadWritesEveryBit := by
  unfold Obligations.LoadWritesEveryBit
  intro n s key iv hready hkey hiv
  refine ⟨_, exec_load_ready n hready hkey hiv, rfl, fun i hi => ?_, fun q => sbit_load_below_iv key iv,
    fun i => sbit_load_iv key iv, fun q => sbit_load_above_iv key iv, ?_⟩
  · rw [Nat.add_comm]; exact sbit_load_key key iv hi
  · exact ⟨sbit_load_top key iv (by decide) (by decide), sbit_load_top key iv (by decide) (by decide),
      sbit_load_top key iv (by decide) (by decide)⟩

/-- Settles O14: the operation of the accepting edge, written out. -/
theorem loadAccepted : Obligations.LoadAccepted := by
  unfold Obligations.LoadAccepted
  exact fun n _ _ _ => exec_load_ready n

/-- Settles O18: Init is run on the packed register file, and the 64 keystream bits are those of one batch. -/
theorem sourceVectors : Obligations.SourceVectors := by
  unfold Obligations.SourceVectors
  rw [initState_zero, initState_secondVector, ← batch_bits _ (by decide), ← batch_bits _ (by decide)]
  decide +kernel

end Sys2Proof.Machine
end

section
/-! SUPPORT. Commands at the transaction level, after a LOAD and without another: s advances by the bits they extract,
and a result is that many bits of the keystream (42_extract.md R161, R168, 41_init.md R143). -/

namespace Sys2Proof.Machine

/-! ### The bits a list of commands extracts -/

/-- K: the sum of the widths of the extractions that are not rejected once there is a key (42_extract.md R168). -/
def bitsExtracted (c : Config) (is : List Instr) : Nat :=
  ((is.filter fun i => (cause c .running i).isNone).map resultBits).sum

theorem bitsExtracted_cons_of_rejected {c : Config} {i : Instr} {d : Cause} (is : List Instr)
    (h : cause c .running i = some d) : bitsExtracted c (i :: is) = bitsExtracted c is := by
  rw [bitsExtracted, List.filter_cons_of_neg (by simp [h]), bitsExtracted]

theorem bitsExtracted_cons_of_accepted {c : Config} {i : Instr} (is : List Instr) (h : cause c .running i = none) :
    bitsExtracted c (i :: is) = resultBits i + bitsExtracted c is := by
  rw [bitsExtracted, List.filter_cons_of_pos (by simp [h]), List.map_cons, List.sum_cons, bitsExtracted]

/-! ### One command -/

/-- A cause reads of the phase only whether it is UNLOADED (60_exceptions.md R202). -/
theorem cause_of_ne_unloaded (c : Config) {ph : Phase} (h : ph ≠ .unloaded) (i : Instr) :
    cause c ph i = cause c .running i := by
  cases i <;> simp [cause, h]

theorem transact_of_rejected {c : Config} {i : Instr} {a : Arch} {d : Cause} (key iv : Key)
    (h : cause c a.phase i = some d) :
    transact c key iv i a = { a with errCode := firstCause a.errCode d } := by
  rw [transact, h]

/-- The four extractions are one operation, of the number of bits each asks for. -/
theorem transactAccepted_extraction (c : Config) (key iv : Key) {i : Instr} (a : Arch) (h : isExtraction i = true) :
    transactAccepted c key iv i a = transactExtract c (resultBits i) a := by
  cases i with
  | nextBit n => rfl
  | nextByte n => rfl
  | nextBits n => rfl
  | nextBytes m => rfl
  | nop n | load n | reserved110 n | reserved111 n => cases h

/-- Besides LOAD a command that is not rejected moves s by the bits it asks for, and none leads back to UNLOADED. -/
theorem transactAccepted_advances (c : Config) (key iv : Key) {i : Instr} {a : Arch} (hload : ∀ n, .load n ≠ i)
    (hphase : a.phase ≠ .unloaded) :
    (transactAccepted c key iv i a).phase ≠ .unloaded ∧
    (transactAccepted c key iv i a).sreg = (stepN a.sreg (resultBits i)).2 := by
  cases hi : isExtraction i with
  | true =>
    rw [transactAccepted_extraction c key iv a hi]
    exact ⟨nofun, rfl⟩
  | false =>
    cases i with
    | load n => exact absurd rfl (hload n)
    | nop n | reserved110 n | reserved111 n => exact ⟨hphase, rfl⟩
    | nextBit n | nextByte n | nextBits n | nextBytes m => cases hi

/-! ### A list of commands, and the result after it -/

/-- After a list of commands without a LOAD there is still a key, and s is K steps on. -/
theorem foldl_transact_advances (c : Config) (key iv : Key) {is : List Instr} {a : Arch}
    (hload : ∀ n, .load n ∉ is) (hphase : a.phase ≠ .unloaded) :
    (is.foldl (fun a i => transact c key iv i a) a).phase ≠ .unloaded ∧
    (is.foldl (fun a i => transact c key iv i a) a).sreg = (stepN a.sreg (bitsExtracted c is)).2 := by
  induction is generalizing a with
  | nil => exact ⟨hphase, rfl⟩
  | cons i is ih =>
    simp only [List.mem_cons, not_or, forall_and] at hload
    obtain ⟨hi, his⟩ := hload
    rw [List.foldl_cons]
    have hcause := cause_of_ne_unloaded c hphase i
    cases hc : cause c .running i with
    | some d =>
      rw [transact_of_rejected key iv (hcause.trans hc), bitsExtracted_cons_of_rejected is hc]
      exact ih his hphase
    | none =>
      obtain ⟨hphase', hsreg⟩ := transactAccepted_advances c key iv hi hphase
      rw [transact_of_accepted key iv (hcause.trans hc), bitsExtracted_cons_of_accepted is hc, stepN_add_state, ← hsreg]
      exact ih his hphase'

/-- Keystream bit K + j is lane j of any run of more than j steps that begins K steps after Init. -/
theorem keystream_add (key iv : Key) (K : Nat) {j b : Nat} (h : j < b) :
    keystream key iv (K + j) = (stepN (stepN (initState key iv) K).2 b).1.getLsbD j := by
  rw [keystream, getLsbD_stepN, getLsbD_stepN, stepN_add_state, decide_eq_true h,
    decide_eq_true (Nat.lt_succ_self (K + j))]

/-- The result of an extraction that is not rejected is the bits its steps emit: it asks for no more than W. -/
theorem getLsbD_transact_extraction {c : Config} (key iv : Key) {i : Instr} {a : Arch} (hi : isExtraction i = true)
    (hc : cause c a.phase i = none) {j : Nat} (hj : j < resultBits i) :
    (transact c key iv i a).ksData.getLsbD j = (stepN a.sreg (resultBits i)).1.getLsbD j := by
  have hbits := resultBits_le_of_accepted hc
  have hlane : j < 64 := by have := wordBits_cases c; omega
  rw [transact_of_accepted key iv hc, transactAccepted_extraction c key iv a hi, transactExtract_of_le hbits,
    BitVec.getLsbD_setWidth, decide_eq_true hlane, Bool.true_and]

end Sys2Proof.Machine
end

section
/-! SUPPORT. The accepting edge of a command, written out: the extraction of one cycle (42_extract.md R161) and LOAD
(41_init.md R140). -/

namespace Sys2Proof.Machine

/-- An extraction of k ≤ NMAX bits: k is inside the bound of the batch, and its result inside W bits. -/
theorem extract_clearStrobes_of_le {k : Nat} {s : State} (h : k ≤ nmax s.cfg) :
    extract k (clearStrobes s) =
      { s with
        sreg := (stepN s.sreg k).2, pad := 0, ksData := (stepN s.sreg k).1.setWidth 64, ksValid := true,
        rej := false, phase := .running } := by
  have hw : k ≤ wordBits s.cfg := h.trans (nmax_le_wordBits s.cfg)
  have hbatch : k ≤ 66 := by have := wordBits_cases s.cfg; omega
  rw [← batch_eq_stepN s.sreg hbatch, ← zextWord_of_le hw, ← toWord_zextWord, extract, if_pos (by exact h)]
  rfl

/-- An accepted extraction of at most NMAX bits is done at its accepting edge (42_extract.md R161). -/
theorem exec_extraction_of_le {i : Instr} {s : State} (hr : cmdReady s = true) (hi : isExtraction i = true)
    (hc : cause s.cfg s.phase i = none) (hk : resultBits i ≤ nmax s.cfg) :
    exec i s = .next
      { s with
        sreg := (stepN s.sreg (resultBits i)).2, pad := 0, ksData := (stepN s.sreg (resultBits i)).1.setWidth 64,
        ksValid := true, rej := false, phase := .running } := by
  rw [exec_extraction hr hi hc, extract_clearStrobes_of_le hk]

/-- One lane of keystream is the emitted bit, zero-extended. -/
theorem setWidth_stepN_one (s : SReg) : (stepN s 1).1.setWidth 64 = if (step1 s).1 then 1 else 0 := by
  change (BitVec.cons (step1 s).1 0#0).setWidth 64 = _
  cases (step1 s).1 <;> decide

/-- A LOAD that has a next state found its key and IV defined. -/
theorem exec_load_next {n : Nat} {s t : State} (hr : cmdReady s = true) (h : exec (.load n) s = .next t) :
    ∃ key iv, t = loadRegs key iv (clearStrobes s) := by
  obtain ⟨hb, -⟩ | ⟨-, _, hc, -⟩ | ⟨-, ⟨_, hi⟩, -⟩ | ⟨-, -, key, iv, -, -, ht⟩ | ⟨-, hi, -⟩ := exec_next h
  · simp [hr] at hb
  · cases hc
  · cases hi
  · exact ⟨key, iv, ht⟩
  · cases hi

/-- No command writes the parameters or the host's inputs, at an edge that accepts it or holds it off. -/
theorem exec_inputs {i : Instr} {s t : State} (h : exec i s = .next t) :
    t.cfg = s.cfg ∧ t.ports = s.ports ∧ t.feed = s.feed := by
  obtain ⟨-, rfl⟩ | ⟨-, c, -, rfl⟩ | ⟨-, -, rfl⟩ | ⟨-, -, key, iv, -, -, rfl⟩ | ⟨-, -, -, rfl⟩ := exec_next h
  · exact quietEdge_frame s
  · exact ⟨rfl, rfl, rfl⟩
  · exact ⟨rfl, rfl, rfl⟩
  · exact ⟨rfl, rfl, rfl⟩
  · exact extract_frame _ (clearStrobes s)

end Sys2Proof.Machine
end

section
/-! PROOFS. The statements of 42_extract.md. -/

namespace Sys2Proof.Machine

/-- Settles O27: by induction on the commands s is K steps past Init, so the next run emits the keystream from bit K
on. -/
theorem resultsConcatenateToTheKeystream : Obligations.ResultsConcatenateToTheKeystream := by
  unfold Obligations.ResultsConcatenateToTheKeystream
  intro c key iv k v is a hload hinit hphase
  obtain ⟨hphase', hsreg⟩ := foldl_transact_advances c k v hload hphase
  rw [hinit] at hsreg
  refine ⟨hsreg, fun e he hc j hj => ?_⟩
  rw [getLsbD_transact_extraction k v he ((cause_of_ne_unloaded c hphase' e).trans hc) hj, hsreg]
  exact (keystream_add key iv _ hj).symm

/-- Settles O20: its one bit is at most NMAX, and a run of one step is that step. -/
theorem nextBitResult : Obligations.NextBitResult := by
  unfold Obligations.NextBitResult
  intro n s hr hphase
  have hk : 1 ≤ nmax s.cfg := nmax_pos s.cfg
  rw [exec_extraction_of_le (i := .nextBit n) hr rfl (if_neg hphase) hk, resultBits, setWidth_stepN_one]
  rfl

/-- Settles O21: its eight bits are at most NMAX in every configuration. -/
theorem nextByteResult : Obligations.NextByteResult := by
  unfold Obligations.NextByteResult
  intro n s hr hphase
  have hk : 8 ≤ nmax s.cfg := (thirtyOne_le_nmax s.cfg).trans' (by decide)
  exact exec_extraction_of_le (i := .nextByte n) hr rfl (if_neg hphase) hk

/-- Settles O22: a legal n is at most NMAX. -/
theorem nextBitsResult : Obligations.NextBitsResult := by
  unfold Obligations.NextBitsResult
  intro n s hr hphase h1 hn
  exact exec_extraction_of_le (i := .nextBits n) hr rfl (cause_nextBits_eq_none_iff.mpr ⟨hphase, h1, hn⟩) hn

/-- Settles O23: 8m ≤ NMAX ≤ W makes m legal, and its 8m bits fit one edge. -/
theorem nextBytesResult : Obligations.NextBytesResult := by
  unfold Obligations.NextBytesResult
  intro m s hr hphase h1 hk
  have hm : m ≤ wordBits s.cfg / 8 := by have := nmax_le_wordBits s.cfg; omega
  exact exec_extraction_of_le (i := .nextBytes m) hr rfl (cause_nextBytes_eq_none_iff.mpr ⟨hphase, h1, hm⟩) hk

/-- Settles O33: what the one operation of each case writes. -/
theorem commandFrame : Obligations.CommandFrame := by
  unfold Obligations.CommandFrame
  refine fun i s t h => ⟨exec_inputs h, fun hr => ⟨?_, ?_, fun hi hc => ?_⟩⟩
  · rintro (hc | ⟨n, rfl⟩)
    · obtain ⟨c, hc⟩ := Option.ne_none_iff_exists'.mp hc
      cases (exec_rejected hr hc).symm.trans h
      exact ⟨rfl, rfl, rfl, rfl, rfl, rfl, rfl, rfl⟩
    · cases (exec_nop_ready n hr).symm.trans h
      exact ⟨rfl, rfl, rfl, rfl, rfl, rfl, rfl, rfl⟩
  · rintro ⟨n, rfl⟩
    obtain ⟨key, iv, rfl⟩ := exec_load_next hr h
    exact ⟨rfl, rfl, rfl, rfl, rfl, rfl⟩
  · cases (exec_extraction hr hi hc).symm.trans h
    obtain ⟨hk, he⟩ | ⟨hk, he⟩ := extract_cases (resultBits i) (clearStrobes s)
    · rw [he]
      exact ⟨rfl, rfl, rfl, fun _ => ⟨rfl, rfl⟩, fun hlt => absurd hk hlt.not_ge⟩
    · rw [he]
      exact ⟨rfl, rfl, rfl, fun hle => absurd hle hk.not_ge, fun _ => ⟨rfl, rfl, rfl⟩⟩

/-- Settles O19: NOP does nothing at the edge that accepts it, where the strobes fall. -/
theorem nopChangesNothing : Obligations.NopChangesNothing := by
  unfold Obligations.NopChangesNothing
  exact fun n _ => exec_nop_ready n

end Sys2Proof.Machine
end

section
/-! SUPPORT. How long a block stays busy, and what it does while nothing is offered (60_exceptions.md R206, R214). -/

namespace Sys2Proof.Machine

/-- What is asked of the inputs of n edges holds of those of fewer. -/
theorem noReset_of_le {m n : Nat} {s : State} (hmn : m ≤ n) (h : noReset n s = true) : noReset m s = true := by
  rw [noReset, List.all_eq_true] at h ⊢
  exact fun p hp => h p (List.take_subset_take_left _ hmn hp)

/-- A block with `rem` steps to do needs ⌈rem/NMAX⌉ edges for them, no more than the C edges of all 1152. -/
theorem exists_warmupEdges (c : Config) {rem : Nat} (hpos : 0 < rem) (hmax : rem ≤ 1152) :
    ∃ n, n + 1 ≤ warmupCycles c ∧ n * nmax c < rem ∧ rem ≤ (n + 1) * nmax c := by
  have hlow : (rem - 1) / nmax c * nmax c ≤ rem - 1 := Nat.div_mul_le_self _ _
  have hhigh : rem - 1 < ((rem - 1) / nmax c + 1) * nmax c := Nat.lt_mul_of_div_lt (Nat.lt_succ_self _) (nmax_pos c)
  obtain ⟨N, hcycles, -, hall⟩ := exists_warmupCycles_eq c
  have hlt : (rem - 1) / nmax c < N + 1 := Nat.lt_of_mul_lt_mul_right (a := nmax c) (by omega)
  exact ⟨(rem - 1) / nmax c, by omega, by omega, by omega⟩

/-- In a state of the invariant no result is on show while the block is in WARMUP. -/
theorem inWarmup_of_blockInv {s : State} (h : BlockInv s) (hphase : s.phase = .warmup) : InWarmup s := by
  obtain ⟨-, -, -, -, -, -, -, hvalid, -⟩ := h
  refine ⟨hphase, Bool.eq_false_iff.mpr fun hks => ?_⟩
  obtain ⟨hrunning, -⟩ := hvalid hks
  cases hphase.symm.trans hrunning

/-- A block in WARMUP is ready after the edges its remaining steps need. -/
theorem ready_after_warmup {s : State} (h : BlockInv s) (hphase : s.phase = .warmup)
    (hin : noReset (warmupCycles s.cfg) s = true) :
    ∃ j t, j ≤ warmupCycles s.cfg ∧ runEdges j s = .next t ∧ cmdReady t = true := by
  have ⟨hmax, _⟩ := h
  have hpend := pend_eq_zero_of_warmup h hphase
  obtain ⟨n, hn, hlow, hhigh⟩ := exists_warmupEdges s.cfg (rem_pos_of_warmup h hphase) hmax
  obtain ⟨-, t, hrun, ht⟩ := runEdges_of_warmup (inWarmup_of_blockInv h hphase) hlow hhigh (noReset_of_le hn hin)
  refine ⟨n + 1, t, hn, hrun, ?_⟩
  rw [ht]
  exact (cmdReady_iff _).mpr ⟨nofun, hpend⟩

/-- A split extraction is done after one edge. -/
theorem ready_after_split {s : State} (hphase : s.phase ≠ .warmup) (hpend : 0 < s.pend) (hin : noReset 1 s = true) :
    ∃ t, runEdges 1 s = .next t ∧ cmdReady t = true := by
  obtain ⟨hrst, hvalid⟩ := ports_of_noReset_succ hin
  have hstep := step_of_busy hrst hvalid ((not_cmdReady_iff s).mpr (.inr hpend))
  refine ⟨_, runEdges_succ_of_step 0 hstep, ?_⟩
  rw [quietEdge_of_pend hphase hpend]
  rfl

/-- A ready block whose host lists no input does nothing at an edge but clear the strobes. -/
theorem step_drive_nil {s : State} (hr : cmdReady s = true) :
    step (drive s []) = .next (drive (clearStrobes s) []) := by
  have hquiet : quietEdge (drive s []) = clearStrobes (drive s []) := quietEdge_of_ready hr
  rw [step_of_quiet (s := drive s []) rfl, hquiet]
  rfl

end Sys2Proof.Machine
end

section
/-! SUPPORT. Rejections: which words are rejected, and what becomes of `err_code` (60_exceptions.md R202 to R204). -/

namespace Sys2Proof.Machine

/-! ### Extractions and `err_code` -/

/-- An extraction neither reads nor writes `err_code`. -/
theorem extract_with_errCode (k : Nat) (m : State) (e : Option Cause) :
    extract k { m with errCode := e } = { extract k m with errCode := e } := by
  obtain ⟨hk, h⟩ | ⟨hk, h⟩ := extract_cases k m
  · rw [h, extract, if_pos hk]
    rfl
  · rw [h, extract, if_neg hk.not_ge]
    rfl

theorem extract_rej_errCode (k : Nat) (m : State) :
    (extract k m).rej = m.rej ∧ (extract k m).errCode = m.errCode := by
  obtain ⟨-, h⟩ | ⟨-, h⟩ := extract_cases k m
  · rw [h]
    exact ⟨rfl, rfl⟩
  · rw [h]
    exact ⟨rfl, rfl⟩

/-! ### What is rejected -/

/-- The cause of a command word, read off its two fields (60_exceptions.md R202). -/
theorem cause_decode (c : Config) (ph : Phase) (w : CmdWord) :
    cause c ph (decode w) =
      if cmdOp w = 6 ∨ cmdOp w = 7 then some .illegalOp
      else if (cmdOp w = 2 ∨ cmdOp w = 3 ∨ cmdOp w = 4 ∨ cmdOp w = 5) ∧ ph = .unloaded then some .notReady
      else if (cmdOp w = 4 ∧ ¬(1 ≤ cmdCount w ∧ cmdCount w ≤ nmax c)) ∨
          (cmdOp w = 5 ∧ ¬(1 ≤ cmdCount w ∧ cmdCount w ≤ wordBits c / 8)) then some .badN
      else none := by
  have hlt := cmdOp_lt w
  unfold decode
  generalize cmdOp w = op at hlt ⊢
  interval_cases op <;> simp [cause, ite_not, -not_and]

/-- A command without a cause is not rejected and records no code. -/
theorem rej_errCode_of_accepted {i : Instr} {s t : State} (hr : cmdReady s = true)
    (hc : cause s.cfg s.phase i = none) (h : exec i s = .next t) : t.rej = false ∧ t.errCode = s.errCode := by
  obtain ⟨hb, -⟩ | ⟨-, d, hd, -⟩ | ⟨-, -, rfl⟩ | ⟨-, -, key, iv, -, -, rfl⟩ | ⟨-, -, -, rfl⟩ := exec_next h
  · cases hr.symm.trans hb
  · cases hc.symm.trans hd
  · exact ⟨rfl, rfl⟩
  · exact ⟨rfl, rfl⟩
  · exact extract_rej_errCode _ (clearStrobes s)

/-! ### What an edge does to `err_code` -/

/-- A reset clears the code, a rejection keeps the first cause, and every other edge leaves the code. -/
theorem errCode_of_edge {s t : State} (h : Edge s t) :
    (s.ports.rst = some true ∧ t.errCode = none) ∨
    (s.ports.rst = some false ∧ t.errCode = s.errCode) ∨
    (s.ports.rst = some false ∧ t.rej = true ∧ ∃ c, t.errCode = firstCause s.errCode c) := by
  cases h with
  | reset hrst => exact .inl ⟨hrst, rfl⟩
  | warmup hrst | splitSecond hrst | idle hrst => exact .inr (.inl ⟨hrst, rfl⟩)
  | nop ha | load ha | extractOne ha | splitFirst ha => exact .inr (.inl ⟨ha.rst, rfl⟩)
  | rejected ha => exact .inr (.inr ⟨ha.rst, rfl, _, rfl⟩)

end Sys2Proof.Machine
end

section
/-! PROOFS. The statements of 60_exceptions.md. -/

namespace Sys2Proof.Machine

/-- Settles O47: what keeps a block busy is the rest of a warm-up, of at most 1152 steps, or the second edge of a
split. -/
theorem busyEndsInBoundedTime : Obligations.BusyEndsInBoundedTime := by
  unfold Obligations.BusyEndsInBoundedTime
  intro s h hin
  obtain ⟨hphase, -⟩ | ⟨hphase, hpend, -⟩ | ⟨hready, -⟩ := quietEdge_cases s
  · exact ready_after_warmup h hphase hin
  · obtain ⟨n, hcycles, -⟩ := exists_warmupCycles_eq s.cfg
    have hone : 1 ≤ warmupCycles s.cfg := by omega
    obtain ⟨t, hrun, hready⟩ := ready_after_split hphase hpend (noReset_of_le hone hin)
    exact ⟨1, t, hone, hrun, hready⟩
  · exact ⟨0, s, Nat.zero_le _, rfl, hready⟩

/-- Settles O29: a rejection writes the strobes and `err_code` alone, and an extraction reads neither. -/
theorem rejectionEffect : Obligations.RejectionEffect := by
  unfold Obligations.RejectionEffect
  intro i s c hr hc
  refine ⟨_, exec_rejected hr hc, reject_clearStrobes c s, hr, fun j u hj hcj hu => ?_⟩
  cases (exec_extraction hr hj hcj).symm.trans hu
  rw [exec_extraction (s := reject c (clearStrobes s)) hr hj hcj, ← extract_with_errCode]
  rfl

/-- Settles O30: the cause of a word by its two fields, the operation of a rejection, and the reset edge. -/
theorem rejectionCausesAndPriority : Obligations.RejectionCausesAndPriority := by
  unfold Obligations.RejectionCausesAndPriority
  refine fun s w => ⟨fun hr => ?_, fun t hrst _ _ hstep => ?_⟩
  · have hc := cause_decode s.cfg s.phase w
    simp only [← reject_clearStrobes]
    split_ifs at hc ⊢
    · exact exec_rejected hr hc
    · exact exec_rejected hr hc
    · exact exec_rejected hr hc
    · exact fun t => rej_errCode_of_accepted hr hc
  · obtain ⟨-, -, rfl⟩ | ⟨hrun, -⟩ | ⟨_, _, hrun, -⟩ := step_next hstep
    · exact ⟨rfl, rfl, rfl, rfl⟩
    · cases hrst.symm.trans hrun
    · cases hrst.symm.trans hrun

/-- Settles O32: of the edges only a reset clears a code, and only a rejection writes one, where there is none. -/
theorem firstErrorIsSticky : Obligations.FirstErrorIsSticky := by
  unfold Obligations.FirstErrorIsSticky
  refine ⟨fun s t hstep => ?_, fun i s c d hr hd hc => ⟨_, exec_rejected hr hc, rfl, ?_⟩⟩
  · obtain ⟨hrst, ht⟩ | ⟨hrst, ht⟩ | ⟨hrst, hrej, c, ht⟩ := errCode_of_edge (edge_of_step hstep)
    · exact ⟨fun _ _ hn => absurd hrst hn, fun _ => ht, fun _ _ hsome => by cases ht.symm.trans hsome⟩
    · exact ⟨fun _ hsome _ => ht.trans hsome, fun hr => (by cases hrst.symm.trans hr),
        fun _ hnone hsome => by cases (ht.trans hnone).symm.trans hsome⟩
    · exact ⟨fun _ hsome _ => by rw [ht, hsome, firstCause], fun hr => (by cases hrst.symm.trans hr), fun _ _ _ => hrej⟩
  · rw [reject_errCode, clearStrobes_errCode, hd, firstCause]

/-- Settles O37: by induction on the edges, each of which only clears the strobes. -/
theorem idleBlockHolds : Obligations.IdleBlockHolds := by
  unfold Obligations.IdleBlockHolds
  intro s n hr
  induction n generalizing s with
  | zero => exact runEdges_succ_of_step 0 (step_drive_nil hr)
  | succ n ih => exact (runEdges_succ_of_step _ (step_drive_nil hr)).trans (ih (clearStrobes s) hr)

end Sys2Proof.Machine
end

section
/-! SUPPORT. A block whose host lists nothing more: a run of edges leaves it idle, and no edge is a reset. -/

namespace Sys2Proof.Machine

/-- Past the end of `feed` the host stays idle. -/
theorem runEdges_idle {n : Nat} {s t : State} (hports : s.ports = .idle) (hfeed : s.feed = [])
    (h : runEdges n s = .next t) : t.ports = .idle ∧ t.feed = [] := by
  induction n generalizing s with
  | zero => cases h; exact ⟨hports, hfeed⟩
  | succ n ih =>
    obtain ⟨m, hstep, hrest⟩ := exists_step_of_runEdges_succ h
    obtain ⟨-, hports', hfeed'⟩ := step_inputs hstep
    rw [hfeed] at hports' hfeed'
    exact ih hports' hfeed' hrest

theorem noReset_idle (n : Nat) {s : State} (hports : s.ports = .idle) (hfeed : s.feed = []) :
    noReset n s = true := by
  rw [noReset, hports, hfeed]
  cases n with
  | zero => rfl
  | succ n => simp [Inputs.idle]

/-- The reset edge of the boot leaves the reset state, and the LOAD on the ports. -/
theorem step_drive_bootStimulus (s : State) (key iv : Key) :
    step (drive s (bootStimulus key iv)) = .next (drive (State.resetWith s.cfg) (bootStimulus key iv).tail) :=
  step_of_reset (s := drive s (bootStimulus key iv)) rfl nofun

/-- The edge after it accepts the LOAD, and from then on the host is idle. -/
theorem step_drive_bootStimulus_tail (c : Config) (key iv : Key) :
    step (drive (State.resetWith c) (bootStimulus key iv).tail) =
      .next (nextInputs (loadRegs key iv (drive (State.resetWith c) (bootStimulus key iv).tail))) := by
  have hload : decode 0x001 = .load 0 := rfl
  refine step_of_command (w := 0x001) (Accepts.sample ⟨rfl, rfl, rfl, rfl⟩) ?_
  rw [hload]
  exact exec_load_ready 0 rfl rfl rfl

end Sys2Proof.Machine
end

section
/-! SUPPORT. The two edges of a split extraction, together (70_reset_and_hazards.md R246, R253). -/

namespace Sys2Proof.Machine

/-- The first `a` lanes of a run, with those of the next `b` steps above them, are the lanes of the whole run. -/
theorem setWidth_stepN_or_shiftLeft (s : SReg) {a b k : Nat} (hk : a + b = k) :
    (stepN s a).1.setWidth 64 ||| ((stepN (stepN s a).2 b).1.setWidth 64 <<< a) = (stepN s k).1.setWidth 64 := by
  apply BitVec.eq_of_getLsbD_eq
  intro i hi
  have hlane : i - a < 64 := (Nat.sub_le i a).trans_lt hi
  simp only [BitVec.getLsbD_or, BitVec.getLsbD_shiftLeft, BitVec.getLsbD_setWidth, getLsbD_stepN, decide_eq_true hi,
    decide_eq_true hlane, Bool.true_and]
  by_cases hlow : i < a
  · simp [hlow, show i < k by omega]
  · have hsteps : a + (i - a) = i := by omega
    simp [hlow, ← stepN_add_state, stepN_state_congr s hsteps, show i - a < b ↔ i < k by omega]

/-- Loading a W-bit register drops nothing of a result of at most W bits. -/
theorem toWord_setWidth_of_le {c : Config} {n : Nat} (h : n ≤ wordBits c) (z : BitVec n) :
    toWord c (z.setWidth 64) = z.setWidth 64 := by
  rw [← zextWord_of_le h, toWord_zextWord]

/-- The first half of a split extraction: NMAX steps, their bits in `acc`. -/
theorem splitFirst_eq (k : Nat) (m : State) :
    splitFirst k m =
      { m with
        sreg := (stepN m.sreg (nmax m.cfg)).2, pad := 0, acc := (stepN m.sreg (nmax m.cfg)).1.setWidth 64,
        pend := k - nmax m.cfg } := by
  have hle := nmax_le_wordBits m.cfg
  have hbatch : nmax m.cfg ≤ 66 := by have := wordBits_cases m.cfg; omega
  rw [← batch_eq_stepN m.sreg hbatch, ← zextWord_of_le hle]
  rfl

/-- The second half after the first: k steps have been done, and `ks_data` holds their k bits. -/
theorem splitSecond_splitFirst {k : Nat} {m : State} (hlow : nmax m.cfg < k) (hhigh : k ≤ wordBits m.cfg) :
    splitSecond (splitFirst k m) =
      { splitFirst k m with
        sreg := (stepN m.sreg k).2, pend := 0, ksData := (stepN m.sreg k).1.setWidth 64, ksValid := true,
        phase := .running } := by
  have hsteps : nmax m.cfg + (k - nmax m.cfg) = k := by omega
  have hrest : k - nmax m.cfg ≤ wordBits m.cfg := by omega
  have hbatch : k - nmax m.cfg ≤ 66 := by have := wordBits_cases m.cfg; omega
  rw [← toWord_setWidth_of_le hhigh, ← setWidth_stepN_or_shiftLeft m.sreg hsteps, ← stepN_state_congr m.sreg hsteps,
    stepN_add_state, ← zextWord_of_le hrest, ← batch_eq_stepN _ hbatch, splitFirst_eq]
  rfl

/-- An accepted extraction of more than NMAX bits begins a split (70_reset_and_hazards.md R253). -/
theorem exec_extraction_of_lt {i : Instr} {s : State} (hr : cmdReady s = true) (hi : isExtraction i = true)
    (hc : cause s.cfg s.phase i = none) (hk : nmax s.cfg < resultBits i) :
    exec i s = .next (splitFirst (resultBits i) (clearStrobes s)) := by
  have hsplit : extract (resultBits i) (clearStrobes s) = splitFirst (resultBits i) (clearStrobes s) :=
    if_neg hk.not_ge
  rw [exec_extraction hr hi hc, hsplit]

theorem not_cmdReady_splitFirst {k : Nat} {s : State} (hk : nmax s.cfg < k) :
    cmdReady (splitFirst k (clearStrobes s)) = false :=
  (not_cmdReady_iff _).mpr (.inr (Nat.sub_pos_of_lt hk))

/-- The edge after the first half of a split does the second half. -/
theorem quietEdge_splitFirst {k : Nat} {s : State} (hphase : s.phase ≠ .warmup) (hk : nmax s.cfg < k) :
    quietEdge (splitFirst k (clearStrobes s)) = splitSecond (splitFirst k (clearStrobes s)) := by
  have hpend : 0 < (splitFirst k (clearStrobes s)).pend := Nat.sub_pos_of_lt hk
  rw [quietEdge, if_neg (by exact hphase), if_pos hpend]
  rfl

/-- At the second edge of a split the result comes (70_reset_and_hazards.md R253). -/
theorem ksValid_of_step_of_pend {s t : State} (hphase : s.phase ≠ .warmup) (hpend : 0 < s.pend)
    (hrst : s.ports.rst = some false) (h : step s = .next t) : t.ksValid = true := by
  obtain ⟨hks, -⟩ := strobesMarkOneEdge s t h
  exact hks.mpr ⟨hrst, .inl ⟨hphase, hpend⟩⟩

end Sys2Proof.Machine
end

section
/-! SUPPORT. Where the busy cycles of a block lead, at the transaction level (70_reset_and_hazards.md R250). -/

namespace Sys2Proof.Machine

/-- The architectural state a block shows once the busy cycles it has begun are done; that of a ready block is its
own. -/
def archAhead (s : State) : Arch :=
  if s.phase = .warmup then archOf (afterWarmup s) else if 0 < s.pend then archOf (splitSecond s) else archOf s

theorem archAhead_of_ready {s : State} (h : cmdReady s = true) : archAhead s = archOf s := by
  obtain ⟨hphase, hpend⟩ := (cmdReady_iff s).mp h
  rw [archAhead, if_neg hphase, if_neg hpend.not_gt]

theorem archAhead_of_warmup {s : State} (h : s.phase = .warmup) : archAhead s = archOf (afterWarmup s) := if_pos h

theorem archAhead_of_pend {s : State} (h : s.phase ≠ .warmup) (hpend : 0 < s.pend) :
    archAhead s = archOf (splitSecond s) := by
  rw [archAhead, if_neg h, if_pos hpend]

/-- A warm-up cycle does not move the state the block is coming to. -/
theorem archAhead_warmupCycle {s : State} (h : s.phase = .warmup) (hpend : s.pend = 0) :
    archAhead (warmupCycle (clearStrobes s)) = archAhead s := by
  have hquiet : quietEdge s = warmupCycle (clearStrobes s) := if_pos h
  rw [← hquiet, archAhead_of_warmup h]
  obtain hfurther | hlast := Nat.lt_or_ge (nmax s.cfg) s.rem
  · have hphase : (quietEdge s).phase = .warmup := by rw [quietEdge_of_further_warmup h hfurther]; exact h
    have hend := congrArg archOf (afterWarmup_of_further_warmup h hfurther)
    rw [archAhead_of_warmup hphase]
    exact hend
  · rw [quietEdge_of_last_warmup h hlast]
    exact archAhead_of_ready ((cmdReady_iff _).mpr ⟨nofun, hpend⟩)

/-- Nor does the second half of a split move it. -/
theorem archAhead_splitSecond {s : State} (h : s.phase ≠ .warmup) (hpend : 0 < s.pend) :
    archAhead (splitSecond (clearStrobes s)) = archAhead s := by
  rw [archAhead_of_pend h hpend]
  rfl

/-! ### The accepting edge of a command -/

theorem archAhead_reject {s : State} {w : CmdWord} {c : Cause} (ha : Accepts s w)
    (hc : cause s.cfg s.phase (decode w) = some c) (key iv : Key) :
    archAhead (reject c (clearStrobes s)) = transact s.cfg key iv (decode w) (archOf s) := by
  rw [transact_of_rejected (a := archOf s) key iv hc]
  exact archAhead_of_ready (s := reject c (clearStrobes s)) ha.ready

theorem archAhead_loadRegs (s : State) (n : Nat) (key iv : Key) :
    archAhead (loadRegs key iv (clearStrobes s)) = transact s.cfg key iv (.load n) (archOf s) := by
  rw [archAhead_of_warmup rfl]
  exact congrArg archOf (afterWarmup_loadRegs key iv (clearStrobes s))

/-- An extraction that is not rejected, at the transaction level: it asks for no more than W bits. -/
theorem transact_extraction {c : Config} {i : Instr} {a : Arch} (key iv : Key) (hi : isExtraction i = true)
    (hc : cause c a.phase i = none) :
    transact c key iv i a =
      { a with
        sreg := (stepN a.sreg (resultBits i)).2, ksData := (stepN a.sreg (resultBits i)).1.setWidth 64,
        phase := .running } := by
  rw [transact_of_accepted key iv hc, transactAccepted_extraction c key iv a hi,
    transactExtract_of_le (resultBits_le_of_accepted hc)]

theorem archAhead_extractOne {s : State} {w : CmdWord} (ha : Accepts s w) (hi : isExtraction (decode w) = true)
    (hc : cause s.cfg s.phase (decode w) = none) (hk : resultBits (decode w) ≤ nmax s.cfg) (key iv : Key) :
    archAhead (extractOne (resultBits (decode w)) (clearStrobes s)) =
      transact s.cfg key iv (decode w) (archOf s) := by
  have hone : extract (resultBits (decode w)) (clearStrobes s) = extractOne (resultBits (decode w)) (clearStrobes s) :=
    if_pos hk
  rw [transact_extraction (a := archOf s) key iv hi hc, ← hone, extract_clearStrobes_of_le hk]
  exact archAhead_of_ready ((cmdReady_iff _).mpr ⟨nofun, ha.pend⟩)

theorem archAhead_splitFirst {s : State} {w : CmdWord} (ha : Accepts s w) (hi : isExtraction (decode w) = true)
    (hc : cause s.cfg s.phase (decode w) = none) (hk : nmax s.cfg < resultBits (decode w)) (key iv : Key) :
    archAhead (splitFirst (resultBits (decode w)) (clearStrobes s)) =
      transact s.cfg key iv (decode w) (archOf s) := by
  rw [transact_extraction (a := archOf s) key iv hi hc,
    archAhead_of_pend (s := splitFirst _ (clearStrobes s)) ha.phase (Nat.sub_pos_of_lt hk),
    splitSecond_splitFirst (m := clearStrobes s) hk (resultBits_le_of_accepted hc)]
  rfl

/-! ### The events of an edge and of a run -/

theorem Accepts.eventsAt {s : State} {w : CmdWord} (h : Accepts s w) :
    eventsAt s = [.accepted (decode w) (s.ports.keyIn.getD 0) (s.ports.ivIn.getD 0)] := by
  simp only [Machine.eventsAt, h.sample, h.ready, if_true]

/-- A busy block accepts nothing. -/
theorem eventsAt_of_busy {s : State} (hrst : s.ports.rst = some false) (hr : cmdReady s = false) :
    eventsAt s = [] := by
  obtain ⟨p, h⟩ | ⟨hrst', -⟩ | ⟨-, h, -⟩ | ⟨w, -, -, -, h⟩ := sample_cases s
  · rw [eventsAt, h]
  · cases hrst.symm.trans hrst'
  · rw [eventsAt, h]
  · simp only [eventsAt, h, hr, Bool.false_eq_true, if_false]

theorem eventsAt_of_idle {s : State} (hrst : s.ports.rst = some false) (hvalid : s.ports.cmdValid = some false) :
    eventsAt s = [] := by
  rw [eventsAt, sample, hrst, hvalid]

theorem eventsAt_of_reset {s t : State} (hrst : s.ports.rst = some true) (h : step s = .next t) :
    eventsAt s = [.reset] := by
  obtain ⟨p, hs⟩ | ⟨-, -, hs⟩ | ⟨hrst', -⟩ | ⟨w, hrst', -⟩ := sample_cases s
  · rw [step, hs] at h; cases h
  · rw [eventsAt, hs]
  · cases hrst.symm.trans hrst'
  · cases hrst.symm.trans hrst'

theorem events_succ_of_step {s t : State} (n : Nat) (h : step s = .next t) :
    events (n + 1) s = eventsAt s ++ events n t := by
  rw [events, h]

/-! ### The commuting diagram, for an edge and for a run -/

/-- An edge moves the state the block is coming to by its event: a busy cycle has none and does not move it, and the
command an edge accepts moves it at once. -/
theorem archAhead_of_step {s t : State} (hinv : BlockInv s) (h : step s = .next t) :
    archAhead t = (eventsAt s).foldl (applyEvent s.cfg) (archAhead s) := by
  cases edge_of_step h with
  | reset hrst => rw [eventsAt_of_reset hrst h]; rfl
  | warmup hrst hphase =>
    rw [eventsAt_of_busy hrst ((not_cmdReady_iff s).mpr (.inl hphase))]
    exact archAhead_warmupCycle hphase (pend_eq_zero_of_warmup hinv hphase)
  | splitSecond hrst hphase hpend =>
    rw [eventsAt_of_busy hrst ((not_cmdReady_iff s).mpr (.inr hpend))]
    exact archAhead_splitSecond hphase hpend
  | idle hrst _ hvalid => rw [eventsAt_of_idle hrst hvalid]; rfl
  | rejected ha hc =>
    rw [ha.eventsAt, archAhead_of_ready ha.ready]
    exact archAhead_reject ha hc _ _
  | nop ha hi => rw [ha.eventsAt, hi]; rfl
  | @load w n key iv ha hi hkey hiv =>
    rw [ha.eventsAt, archAhead_of_ready ha.ready, hi, hkey, hiv]
    exact archAhead_loadRegs s n key iv
  | extractOne ha hi hc hk =>
    rw [ha.eventsAt, archAhead_of_ready ha.ready]
    exact archAhead_extractOne ha hi hc hk _ _
  | splitFirst ha hi hc hk =>
    rw [ha.eventsAt, archAhead_of_ready ha.ready]
    exact archAhead_splitFirst ha hi hc hk _ _

theorem archAhead_of_runEdges {n : Nat} {s t : State} (hinv : BlockInv s) (h : runEdges n s = .next t) :
    archAhead t = (events n s).foldl (applyEvent s.cfg) (archAhead s) := by
  induction n generalizing s with
  | zero => cases h; rfl
  | succ n ih =>
    obtain ⟨m, hstep, hrest⟩ := exists_step_of_runEdges_succ h
    obtain ⟨hcfg, -⟩ := step_inputs hstep
    rw [events_succ_of_step n hstep, List.foldl_append, ← archAhead_of_step hinv hstep, ← hcfg]
    exact ih (blockInv_of_edge hinv (edge_of_step hstep)) hrest

end Sys2Proof.Machine
end

section
/-! SUPPORT. What an edge does with its inputs: which it reads, and which it must have defined
(70_reset_and_hazards.md R245, R259), and what tells its outcomes apart (R257). -/

namespace Sys2Proof.Machine

/-! ### Edges that accept no command -/

/-- Without a reset and without an accepted command an edge is a busy cycle, or clears the strobes. -/
theorem step_of_unaccepted {s : State} (hrst : s.ports.rst = some false) (hvalid : s.ports.cmdValid ≠ none)
    (h : cmdReady s = false ∨ s.ports.cmdValid = some false) : step s = .next (nextInputs (quietEdge s)) := by
  obtain hbusy | hidle := h
  · exact step_of_busy hrst hvalid hbusy
  · exact step_of_quiet (by rw [sample, hrst, hidle])

theorem step_of_undefined_rst {s : State} (h : s.ports.rst = none) : step s = .refused (.undefinedInput .rst) := by
  rw [step, sample, h]

/-- The event of an edge is an acceptance only where the command is accepted. -/
theorem accepts_of_eventsAt {s : State} {i : Instr} {key iv : Key} (h : eventsAt s = [.accepted i key iv]) :
    ∃ w, Accepts s w := by
  obtain ⟨p, hs⟩ | ⟨-, -, hs⟩ | ⟨-, hs, -⟩ | ⟨w, hrst, hvalid, hcmd, hs⟩ := sample_cases s
  · rw [eventsAt, hs] at h; cases h
  · rw [eventsAt, hs] at h; cases h
  · rw [eventsAt, hs] at h; cases h
  · cases hr : cmdReady s with
    | true => exact ⟨w, hrst, hr, hvalid, hcmd⟩
    | false => simp [eventsAt, hs, hr] at h

/-- At a reset, in a busy block and where nothing is offered, only `rst` and `cmd_valid` are read. -/
theorem step_ports_of_unaccepted {s : State} {p : Inputs} (hrst : p.rst = s.ports.rst) (hp : p.cmdValid ≠ none)
    (hs : s.ports.cmdValid ≠ none)
    (h : s.ports.rst = some true ∨ cmdReady s = false ∨ s.ports.cmdValid = some false ∧ p.cmdValid = some false) :
    step { s with ports := p } = step s := by
  cases hr : s.ports.rst with
  | none => rw [step_of_undefined_rst hr, step_of_undefined_rst (s := { s with ports := p }) (hrst.trans hr)]
  | some b =>
    cases b with
    | true => rw [step_of_reset hr hs, step_of_reset (s := { s with ports := p }) (hrst.trans hr) hp]; rfl
    | false =>
      have hquiet : cmdReady s = false ∨ s.ports.cmdValid = some false ∧ p.cmdValid = some false :=
        h.resolve_left (by simp [hr])
      rw [step_of_unaccepted hr hs (hquiet.imp_right And.left),
        step_of_unaccepted (s := { s with ports := p }) (hrst.trans hr) hp (hquiet.imp_right And.right),
        nextInputs_quietEdge_ports]

/-! ### Edges that offer a command -/

/-- An edge that offers a word runs the command it decodes to, and then the host's next inputs come. -/
theorem step_of_offered {s : State} {w : CmdWord} (hrst : s.ports.rst = some false)
    (hvalid : s.ports.cmdValid = some true) (hcmd : s.ports.cmd = some w) : step s = settle (exec (decode w) s) := by
  rw [step, sample, hrst, hvalid, hcmd]

theorem decode_of_decodeTableWord {nbits w : Nat} {i : Instr} (h : decodeTableWord nbits w = some i) :
    decode (BitVec.ofNat 10 (tableWord nbits w)) = i := by
  rw [decodeTableWord, decodeNumber] at h
  split_ifs at h
  exact Option.some.inj h

/-! ### Defined and undefined inputs -/

/-- A command other than a LOAD needs no input but its word. -/
theorem exec_of_not_load {i : Instr} {s : State} (hr : cmdReady s = true) (hload : ∀ n, i ≠ .load n) :
    ∃ m, exec i s = .next m := by
  cases hc : cause s.cfg s.phase i with
  | some c => exact ⟨_, exec_rejected hr hc⟩
  | none =>
    cases hi : isExtraction i with
    | true => exact ⟨_, exec_extraction hr hi hc⟩
    | false =>
      cases i with
      | nop n => exact ⟨_, exec_nop_ready n hr⟩
      | load n => exact absurd rfl (hload n)
      | reserved110 n | reserved111 n => cases hc
      | nextBit n | nextByte n | nextBits n | nextBytes n => cases hi

theorem exec_load_of_undefined (n : Nat) {s : State} (hr : cmdReady s = true)
    (h : ¬(s.ports.keyIn ≠ none ∧ s.ports.ivIn ≠ none)) :
    ∃ p, exec (.load n) s = .refused (.undefinedInput p) := by
  simp only [exec, execLoad, offer_of_ready hr, clearStrobes_ports]
  cases hk : s.ports.keyIn with
  | none => exact ⟨_, rfl⟩
  | some key =>
    cases hv : s.ports.ivIn with
    | none => exact ⟨_, rfl⟩
    | some iv => simp [hk, hv] at h

/-- An accepted command whose inputs are defined has a next state. -/
theorem exec_decode_of_defined {s : State} {w : CmdWord} (hr : cmdReady s = true)
    (h : cmdOp w = 1 → s.ports.keyIn ≠ none ∧ s.ports.ivIn ≠ none) : ∃ m, exec (decode w) s = .next m := by
  by_cases hop : cmdOp w = 1
  · obtain ⟨hkey, hiv⟩ := h hop
    obtain ⟨key, hkey⟩ := Option.ne_none_iff_exists'.mp hkey
    obtain ⟨iv, hiv⟩ := Option.ne_none_iff_exists'.mp hiv
    rw [decode_of_cmdOp_load hop]
    exact ⟨_, exec_load_ready _ hr hkey hiv⟩
  · exact exec_of_not_load hr fun n hi => hop (cmdOp_of_decode_load hi)

theorem exists_step_of_definedInputs {s : State} (h : DefinedInputs s) : ∃ t, step s = .next t := by
  obtain ⟨hrst, hvalid, haccept⟩ := h
  obtain ⟨b, hr⟩ := Option.ne_none_iff_exists'.mp hrst
  obtain ⟨v, hv⟩ := Option.ne_none_iff_exists'.mp hvalid
  cases b with
  | true => exact ⟨_, step_of_reset hr hvalid⟩
  | false =>
    cases v with
    | false => exact ⟨_, step_of_unaccepted hr hvalid (.inr hv)⟩
    | true =>
      cases hready : cmdReady s with
      | false => exact ⟨_, step_of_unaccepted hr hvalid (.inl hready)⟩
      | true =>
        obtain ⟨hcmd, hload⟩ := haccept hr hv hready
        obtain ⟨w, hw⟩ := Option.ne_none_iff_exists'.mp hcmd
        obtain ⟨m, hm⟩ := exec_decode_of_defined (w := w) hready fun hop => hload (by rw [hw, Option.map_some, hop])
        exact ⟨_, step_of_command (Accepts.sample ⟨hr, hready, hv, hw⟩) hm⟩

theorem step_of_not_definedInputs {s : State} (h : ¬DefinedInputs s) : ∃ p, step s = .refused (.undefinedInput p) := by
  cases hr : s.ports.rst with
  | none => exact ⟨_, step_of_undefined_rst hr⟩
  | some b =>
    cases hv : s.ports.cmdValid with
    | none => exact ⟨.cmdValid, by rw [step, sample, hr, hv]⟩
    | some v =>
      simp only [DefinedInputs, hr, hv, ne_eq, reduceCtorEq, not_false_eq_true, true_and, Option.some.injEq,
        Classical.not_imp] at h
      obtain ⟨rfl, rfl, hready, h⟩ := h
      cases hw : s.ports.cmd with
      | none => exact ⟨.cmd, by simp only [step, sample, hr, hv, hw, hready, if_true]⟩
      | some w =>
        simp only [hw, reduceCtorEq, not_false_eq_true, true_and, Option.map_some, Option.some.injEq,
          Classical.not_imp] at h
        obtain ⟨hop, hundef⟩ := h
        obtain ⟨p, hp⟩ := exec_load_of_undefined (cmdCount w) hready hundef
        refine ⟨p, ?_⟩
        rw [step_of_offered hr hv hw, decode_of_cmdOp_load hop, hp]
        rfl

/-! ### OP, and what the host reads off the outputs -/

/-- NOP and LOAD are the commands with OP 0 and 1: they are never rejected and extract nothing. -/
theorem cmdOp_ne_zero_and_ne_one {c : Config} {ph : Phase} {w : CmdWord}
    (h : isExtraction (decode w) = true ∨ cause c ph (decode w) ≠ none) : cmdOp w ≠ 0 ∧ cmdOp w ≠ 1 := by
  rw [← toNat_opcode_decode]
  generalize decode w = i at h ⊢
  cases i with
  | nop n | load n => simp [isExtraction, cause] at h
  | nextBit n | nextByte n | nextBits n | nextBytes n | reserved110 n | reserved111 n => simp [opcode]

theorem cmdOp_of_decode_nop {w : CmdWord} {n : Nat} (h : decode w = .nop n) : cmdOp w = 0 := by
  rw [← toNat_opcode_decode, h]; rfl

theorem phaseBits_eq_warmup_iff (ph : Phase) : phaseBits ph = 0b01#2 ↔ ph = .warmup := by
  cases ph <;> decide

/-! ### Reset -/

/-- Besides a reset no edge leads into UNLOADED (10_state.md R32). -/
theorem unloaded_of_edge {s t : State} (h : Edge s t) (hrst : s.ports.rst ≠ some true) (ht : t.phase = .unloaded) :
    s.phase = .unloaded := by
  cases h with
  | reset hreset => exact absurd hreset hrst
  | idle | nop | rejected | splitFirst => exact ht
  | load | splitSecond | extractOne => cases ht
  | warmup _ hphase =>
    rw [nextInputs_phase, warmupCycle_phase] at ht
    split_ifs at ht
    exact ht

end Sys2Proof.Machine
end

section
/-! PROOFS. The statements of 70_reset_and_hazards.md. -/

namespace Sys2Proof.Machine

/-- Settles O17: the reset edge makes every register known, the LOAD is accepted at the next one, and C edges later its
1152 steps are done; an idle host stays idle. -/
theorem bootFromAnyPowerUpState : Obligations.BootFromAnyPowerUpState := by
  unfold Obligations.BootFromAnyPowerUpState
  intro s key iv
  obtain ⟨n, hcycles, hlow, hhigh⟩ := exists_warmupCycles_eq s.cfg
  obtain ⟨-, t, hrun, ht⟩ := runEdges_of_warmup (n := n)
    (s := nextInputs (loadRegs key iv (drive (State.resetWith s.cfg) (bootStimulus key iv).tail)))
    ⟨rfl, rfl⟩ hlow hhigh (noReset_idle _ rfl rfl)
  obtain ⟨hports, hfeed⟩ := runEdges_idle rfl rfl hrun
  rw [runEdges_succ_of_step _ (step_drive_bootStimulus s key iv),
    runEdges_succ_of_step _ (step_drive_bootStimulus_tail s.cfg key iv), hcycles, hrun, ht, hports, hfeed,
    afterWarmup_loadRegs]
  rfl

/-- Settles O46: each edge moves the state the block is coming to as the transaction level says of the edge's event, and
a ready block has come to it. -/
theorem transactionLevelRefinement : Obligations.TransactionLevelRefinement := by
  unfold Obligations.TransactionLevelRefinement
  intro n s t hinv hready hrun hready'
  rw [← archAhead_of_ready hready', ← archAhead_of_ready hready]
  exact archAhead_of_runEdges hinv hrun

/-- Settles O15: a busy block does its busy cycle, and at most 66 steps a cycle are single steps. -/
theorem warmupEdge : Obligations.WarmupEdge := by
  unfold Obligations.WarmupEdge
  intro i s hphase
  rw [exec_busy i ((not_cmdReady_iff s).mpr (.inl hphase)), quietEdge_of_warmup hphase,
    batch_state s.sreg (min_nmax_le s.cfg s.rem)]

/-- Settles O24: W is NMAX + 1, so the second edge does the one step that the first has left. -/
theorem nextBytesSplitResult : Obligations.NextBytesSplitResult := by
  unfold Obligations.NextBytesSplitResult
  intro s hr hphase hcap
  have hw := wordBits_cases s.cfg
  have hmax : nmax s.cfg = wordBits s.cfg - 1 := by rw [nmax, hcap]
  have hlt : nmax s.cfg < wordBits s.cfg := by omega
  have hone : wordBits s.cfg - nmax s.cfg = 1 := by omega
  have hbits : resultBits (.nextBytes (wordBits s.cfg / 8)) = wordBits s.cfg := by simp only [resultBits]; omega
  have hc : cause s.cfg s.phase (.nextBytes (wordBits s.cfg / 8)) = none :=
    cause_nextBytes_eq_none_iff.mpr ⟨hphase, by omega, Nat.le_refl _⟩
  obtain ⟨hwarm, -⟩ := (cmdReady_iff s).mp hr
  have hbusy := not_cmdReady_splitFirst hlt
  refine ⟨splitFirst (wordBits s.cfg) (clearStrobes s), ?_, ?_, hbusy, fun i => ?_⟩
  · rw [exec_extraction_of_lt hr rfl hc (by rw [hbits]; exact hlt), hbits]
  · rw [splitFirst_eq, clearStrobes_cfg, hone]
    rfl
  · rw [exec_busy i hbusy, quietEdge_splitFirst hwarm hlt,
      splitSecond_splitFirst (m := clearStrobes s) hlt (Nat.le_refl _)]
    rfl

/-- Settles O36: where no command is accepted the edge is the same for all that may be offered. -/
theorem acceptanceCondition : Obligations.AcceptanceCondition := by
  unfold Obligations.AcceptanceCondition
  refine ⟨fun s w hcmd => ⟨fun h => ?_, fun ⟨hrst, hvalid, hr⟩ => Accepts.eventsAt ⟨hrst, hr, hvalid, hcmd⟩⟩,
    fun s p => step_ports_of_unaccepted⟩
  obtain ⟨_, ha⟩ := accepts_of_eventsAt h
  exact ⟨ha.rst, ha.cmdValid, ha.ready⟩

/-- Settles O39: of the outcomes only a NOP leaves the block ready with neither strobe, and only a LOAD and a split
leave it busy, in different phases. -/
theorem outcomesAreToldApart : Obligations.OutcomesAreToldApart := by
  unfold Obligations.OutcomesAreToldApart
  intro s t w hr hrst hvalid hcmd hstep
  rw [step_of_offered hrst hvalid hcmd] at hstep
  obtain ⟨hphase, hpend⟩ := (cmdReady_iff s).mp hr
  obtain ⟨m, hm, rfl⟩ := settle_next hstep
  obtain ⟨hb, -⟩ | ⟨-, c, hc, rfl⟩ | ⟨-, ⟨n, hi⟩, rfl⟩ | ⟨-, ⟨n, hi⟩, key, iv, -, -, rfl⟩ | ⟨-, hi, hc, rfl⟩ :=
    exec_next hm
  · cases hr.symm.trans hb
  · obtain ⟨h0, h1⟩ := cmdOp_ne_zero_and_ne_one (.inr (by rw [hc]; nofun))
    simp [outputs, cmdReady, hc, hphase, hpend, h0, h1]
  · simp [outputs, cmdReady, hi, hphase, hpend, cmdOp_of_decode_nop hi, cause, isExtraction]
  · simp [outputs, cmdReady, hi, hpend, cmdOp_of_decode_load hi, cause, isExtraction, phaseBits]
  · obtain ⟨h0, h1⟩ := cmdOp_ne_zero_and_ne_one (c := s.cfg) (ph := s.phase) (.inl hi)
    obtain ⟨hk, he⟩ | ⟨hk, he⟩ := extract_cases (resultBits (decode w)) (clearStrobes s)
    · rw [clearStrobes_cfg] at hk
      rw [he]
      simp [outputs, cmdReady, hi, hc, hpend, hk, hk.not_gt, h0, h1]
    · rw [clearStrobes_cfg] at hk
      rw [he]
      have hrest : resultBits (decode w) - nmax s.cfg ≠ 0 := by omega
      have hlast (u : State) := ksValid_of_step_of_pend
        (s := nextInputs (splitFirst (resultBits (decode w)) (clearStrobes s))) (t := u) hphase (Nat.sub_pos_of_lt hk)
      simpa [outputs, cmdReady, hi, hc, hk, hk.not_ge, hrest, phaseBits_eq_warmup_iff, hphase, h0, h1] using hlast

/-- Settles O40: an edge samples the inputs the condition names, and no others can stop it. -/
theorem onlyUndefinedInputsStop : Obligations.OnlyUndefinedInputsStop := by
  unfold Obligations.OnlyUndefinedInputsStop
  refine fun s => ⟨⟨fun ⟨t, ht⟩ => by_contra fun h => ?_, exists_step_of_definedInputs⟩, step_of_not_definedInputs⟩
  obtain ⟨p, hp⟩ := step_of_not_definedInputs h
  cases ht.symm.trans hp

/-- Settles O41: the reset edge writes every register; of the other edges none leads into UNLOADED, and a code is only
kept or written. -/
theorem resetFromEveryState : Obligations.ResetFromEveryState := by
  unfold Obligations.ResetFromEveryState
  refine ⟨fun s => step_of_reset, fun s t hstep hrst => ⟨unloaded_of_edge (edge_of_step hstep) hrst, fun hnone => ?_⟩⟩
  obtain ⟨hreset, -⟩ | ⟨-, ht⟩ | ⟨-, -, c, ht⟩ := errCode_of_edge (edge_of_step hstep)
  · exact absurd hreset hrst
  · exact ht.symm.trans hnone
  · exact absurd (ht.symm.trans hnone) (firstCause_ne_none _ c)

/-- Settles O35: such an edge samples the word, and no command changes the inputs that come next. -/
theorem stepRunsTheDecodedCommand : Obligations.StepRunsTheDecodedCommand := by
  unfold Obligations.StepRunsTheDecodedCommand
  refine ⟨fun s w hrst hvalid hcmd => ⟨decode_wellFormed w, ?_⟩, fun s nbits w i hi => ?_⟩
  · rw [step_of_offered hrst hvalid hcmd]
    cases he : exec (decode w) s with
    | next m =>
      obtain ⟨-, -, hfeed⟩ := exec_inputs he
      rw [settle, nextInputs, hfeed]
    | fault f => rfl
    | refused r => rfl
  · rw [← decode_of_decodeTableWord hi]
    exact step_of_offered rfl rfl rfl

/-- Settles O42: the reset state is written out in the definition, and its outputs are read off it. -/
theorem resetValues : Obligations.ResetValues := by
  unfold Obligations.ResetValues
  refine fun c => ⟨rfl, rfl, rfl, rfl, rfl, rfl, rfl, rfl, rfl, rfl, ?_⟩
  simp [outputs, cmdReady, State.resetWith, errBits, phaseBits]

end Sys2Proof.Machine
end
